-- ==== Sys2Proof/Word.lean ====
section
/-! DEFINITION. The values of the machine are mathematical integers (spec/00_scope.md R8), so a word has the type Int.
That a stored value lies in the word range is an invariant of the machine (spec/10_state.md R33), kept by the range
checks where the rules make them (log entry 1). What stands here are the two kinds of parameter an instruction has: a
raw word with the address mode it is resolved through (spec/30_encoding.md R70, R76, R77). -/

namespace Sys2Proof

/-- The modes a read operand admits (R73, R77). -/
inductive ReadMode where
  /-- Mode 0: the parameter is the address of the operand. -/
  | position
  /-- Mode 1: the parameter is the operand. -/
  | immediate
  /-- Mode 2: the parameter plus the relative base is the address of the operand. -/
  | relative
deriving DecidableEq, Repr

/-- The modes a write target admits: never immediate (R77). -/
inductive WriteMode where
  /-- Mode 0: the parameter is the address written. -/
  | position
  /-- Mode 2: the parameter plus the relative base is the address written. -/
  | relative
deriving DecidableEq, Repr

/-- A read operand: its mode and its raw parameter word (R75, R76). -/
structure ReadOperand where
  mode : ReadMode
  raw : Int
deriving DecidableEq, Repr

/-- A write target: its mode and its raw parameter word (R75, R76). -/
structure WriteTarget where
  mode : WriteMode
  raw : Int
deriving DecidableEq, Repr

end Sys2Proof
end

