-- ==== Sys2Proof/Config.lean ====
section
/-! DEFINITION. What one machine fixes for its whole life: the parameters of spec/00_scope.md R7, and the free value
behind the host's provider (spec/20_memory.md R61). -/

namespace Sys2Proof

/-- What INPUT does when the input queue is empty (R7, R130). -/
inductive InputPolicy where
  /-- The step responds EMPTY_QUEUE. -/
  | fault
  /-- The step asks the host for a word. -/
  | provider
deriving DecidableEq, Repr

/-- The parameters of one machine (R7). -/
structure Params where
  /-- WORD_BITS; `none` is `unbounded`. -/
  wordBits : Option Nat
  /-- MEM_CAP; `none` is `unbounded`. -/
  memCap : Option Nat
  /-- INPUT_EMPTY_POLICY. -/
  policy : InputPolicy
deriving DecidableEq, Repr

/-- The defaults of R7: 64-bit words and a ceiling of 4096. DESIGN CHOICE (log entry 2): the policy, which R7 leaves
open, is FAULT as in the conventions of spec/95_test_vectors.md. -/
def Params.default : Params :=
  { wordBits := some 64, memCap := some 4096, policy := .fault }

/-- The bounds R7 puts on the parameters: words of at least 64 bits, a positive ceiling. -/
abbrev Params.wf (p : Params) : Prop :=
  (∀ b ∈ p.wordBits, 64 ≤ b) ∧ (∀ c ∈ p.memCap, 0 < c)

/-- GROWTH_BASE (R7). -/
def Config.growthBase : Nat := 64

/-- GROWTH_FACTOR (R7). -/
def Config.growthFactor : Nat := 2

/-- A FREE VALUE (R61, I5): the integer behind the answer to the n-th PROVIDE request for which the state holds no
answer. It has no body, so nothing can be proved of it (log entry 4). -/
opaque Config.providerAnswer : Nat → Int

end Sys2Proof
end

