-- ==== Sys2Proof/Machine/State.lean ====
section
/-! DEFINITION. The state of one machine (spec/10_state.md R20 to R34), the fatal faults with their causes and recorded
details (spec/60_exceptions.md R180, R181), and the machine after reset (spec/70_reset_and_hazards.md R210). -/

namespace Sys2Proof.Machine

/-- RUN_STATE (R27). -/
inductive RunState where
  | runnable
  | halted
  | faulted
deriving DecidableEq, Repr

/-- What FAULT_CAUSE can hold (R28). The codes are `Cause.code`. -/
inductive Cause where
  | none
  | unknownOpcode
  | invalidAddressMode
  | negativeAddress
  | outOfMemory
  | overflow
deriving DecidableEq, Repr

/-- What FAULT_INFO can hold: an integer or a pair (R30, R181). -/
inductive FaultInfo where
  /-- The instruction word, the address, the jump target or the exact result. -/
  | value (v : Int)
  /-- The index of the parameter and its mode digit. -/
  | modeDigit (i m : Nat)
deriving DecidableEq, Repr

/-- The result of a STEP (R57, R106). -/
inductive StepResponse where
  /-- No STEP has been made since the machine was reset (log entry 3). -/
  | idle
  /-- CONTINUE. -/
  | cont
  /-- HALT. -/
  | halt
  /-- FAULT(cause). -/
  | fault (c : Cause)
  /-- EMPTY_QUEUE. -/
  | emptyQueue
  /-- STEP_AFTER_HALT. -/
  | stepAfterHalt
deriving DecidableEq, Repr

/-- A fatal fault that a step raises, with what it records (R180, R181). -/
inductive Trap where
  /-- UNKNOWN_OPCODE(W). -/
  | unknownOpcode (w : Int)
  /-- INVALID_ADDRESS_MODE(i, m). -/
  | invalidAddressMode (i m : Nat)
  /-- NEGATIVE_ADDRESS of an effective address or of a jump target. -/
  | negativeAddress (a : Int)
  /-- OUT_OF_MEMORY(A). -/
  | outOfMemory (a : Nat)
  /-- OVERFLOW, with the exact result. -/
  | overflow (r : Int)
deriving DecidableEq, Repr

/-- The memory of a machine: its length L (R24) and its words that are not 0, by address. An address below `len` that
is not listed holds 0 (R41, R44; log entry 9). The canonical form is `Memory.wf`. -/
structure Memory where
  len : Nat
  cells : List (Nat × Int)
deriving DecidableEq, Repr

/-- The state of one machine. -/
structure State where
  /-- The machine's parameters, fixed for its life (R7, R32; log entry 2). -/
  cfg : Params
  /-- `M` and `L` (R23, R24). -/
  mem : Memory
  /-- The program counter (R21). -/
  pc : Nat
  /-- The relative base (R22). -/
  rb : Int
  /-- The input queue, front first (R25). -/
  iq : List Int
  /-- The output queue, front first (R26). -/
  oq : List Int
  /-- RUN_STATE (R27). -/
  runState : RunState
  /-- FAULT_CAUSE (R28). -/
  faultCause : Cause
  /-- FAULT_PC (R29). -/
  faultPc : Nat
  /-- FAULT_INFO (R30). -/
  faultInfo : FaultInfo
  /-- The model's own: what the last STEP responded (R57, R106; log entry 3). -/
  response : StepResponse
  /-- The model's own: the answers the host has in hand for PROVIDE requests, oldest first (R61; log entry 4). -/
  answers : List Int
  /-- The model's own: how many PROVIDE requests were answered, the counter of the free answers (R61; log entry 4). -/
  provides : Nat
deriving DecidableEq, Repr

/-- Reasons for which the machine could stop with a fault. There are none: the spec describes the entry of every fatal
fault (R182), so a fatal fault is a next state, with RUN_STATE Faulted. Safe (log entry 7). -/
inductive Fault where
deriving DecidableEq, Repr

/-- Reasons for which a step has no meaning. -/
inductive Refusal where
  /-- Raised by `exec` for an instruction that has no meaning in the model; no arm does. Safe. -/
  | notModelled (mnemonic : String)
  /-- Raised by INPUT when the host answers a PROVIDE request with an integer that is not a word: a violation of the
  host's contract, which R61 says is refused. Safe (log entry 5). -/
  | providerAnswerNotWord
deriving DecidableEq, Repr

/-- Why an instruction does not complete: a fatal fault, the recoverable response, or a refusal. -/
inductive Stop where
  | trap (t : Trap)
  | emptyQueue
  | refuse (r : Refusal)
deriving DecidableEq, Repr

/-- The machine right after RESET with an empty image and an empty input (R210, R212), with the default parameters.
No program is in it: a program comes with an image (log entry 8). -/
def State.reset : State :=
  { cfg := Params.default
    mem := { len := 0, cells := [] }
    pc := 0
    rb := 0
    iq := []
    oq := []
    runState := .runnable
    faultCause := .none
    faultPc := 0
    faultInfo := .value 0
    response := .idle
    answers := []
    provides := 0 }

end Sys2Proof.Machine
end

