-- ==== Sys2Proof/Machine/Flags.lean ====
section
/-! DEFINITION. The machine has no flags (spec/10_state.md R31). What stands here is what the ALU computes in their
place: the comparisons and the zero tests of spec/40_execution_cycle.md R112. -/

namespace Sys2Proof.Machine

/-- LT: the signed order of the integers (R112, R113). -/
def condLess (a b : Int) : Bool := decide (a < b)

/-- EQ: equality of the integers (R112, R113). -/
def condEqual (a b : Int) : Bool := decide (a = b)

/-- NZ: the condition of JUMP-IF-TRUE (R112). -/
def condNonZero (a : Int) : Bool := decide (a ≠ 0)

/-- Z: the condition of JUMP-IF-FALSE (R112). -/
def condZero (a : Int) : Bool := decide (a = 0)

end Sys2Proof.Machine
end

