-- ==== Sys2Proof/Syntax.lean ====
section
/-! DEFINITION. The instruction set: one constructor per row of spec/opcode_table.json, with the parameters and roles
of spec/30_encoding.md R74 and R81. An illegal mode digit (R83) has no place in this type: the decoder refuses it. -/

namespace Sys2Proof

/-- The ten instructions (R2, R81). -/
inductive Instr where
  /-- Opcode 1 (R120): the sum of `a` and `b` goes to `c`. -/
  | add (a b : ReadOperand) (c : WriteTarget)
  /-- Opcode 2 (R121): the product of `a` and `b` goes to `c`. -/
  | mul (a b : ReadOperand) (c : WriteTarget)
  /-- Opcode 3 (R130): the next input goes to `a`. -/
  | input (a : WriteTarget)
  /-- Opcode 4 (R131): `a` is appended to the output queue. -/
  | output (a : ReadOperand)
  /-- Opcode 5 (R140): jump to `b` when `a` is not zero. -/
  | jumpIfTrue (a b : ReadOperand)
  /-- Opcode 6 (R141): jump to `b` when `a` is zero. -/
  | jumpIfFalse (a b : ReadOperand)
  /-- Opcode 7 (R150): whether `a` is less than `b` goes to `c`. -/
  | lessThan (a b : ReadOperand) (c : WriteTarget)
  /-- Opcode 8 (R151): whether `a` equals `b` goes to `c`. -/
  | equals (a b : ReadOperand) (c : WriteTarget)
  /-- Opcode 9 (R160): `a` is added to the relative base. -/
  | adjustRelativeBase (a : ReadOperand)
  /-- Opcode 99 (R170). -/
  | halt
deriving DecidableEq, Repr

end Sys2Proof
end

