-- ==== Sys2Proof/Machine/Range.lean ====
section
/-! DEFINITION. The word range of spec/00_scope.md R7 and R8. -/

namespace Sys2Proof

/-- `in_range(v)`: WMIN ≤ v ≤ WMAX, with both ends infinite when WORD_BITS is unbounded (R7, R8). -/
def Params.inRange (p : Params) (v : Int) : Bool :=
  match p.wordBits with
  | none => true
  | some b => decide (-(2 ^ (b - 1) : Nat) ≤ v) && decide (v < (2 ^ (b - 1) : Nat))

/-- The word that a free integer stands for: itself when it is a word, and every word is the image of itself, so the
image of an unknown integer is an unknown word (log entry 4). -/
def Params.toWord (p : Params) (v : Int) : Int :=
  match p.wordBits with
  | none => v
  | some b => v.bmod (2 ^ b)

end Sys2Proof
end

