-- ==== Sys2Proof/WellFormed.lean ====
section
/-! DEFINITION. Which terms of the syntax are instructions of a machine with given parameters: those whose raw
parameters are words (spec/30_encoding.md R75). Modes need no check: the types of spec/30_encoding.md R77's admitted
sets leave no illegal one. -/

namespace Sys2Proof

/-- The raw parameter words of an instruction, in parameter order (R75). -/
def Instr.params : Instr → List Int
  | .add a b c => [a.raw, b.raw, c.raw]
  | .mul a b c => [a.raw, b.raw, c.raw]
  | .input a => [a.raw]
  | .output a => [a.raw]
  | .jumpIfTrue a b => [a.raw, b.raw]
  | .jumpIfFalse a b => [a.raw, b.raw]
  | .lessThan a b c => [a.raw, b.raw, c.raw]
  | .equals a b c => [a.raw, b.raw, c.raw]
  | .adjustRelativeBase a => [a.raw]
  | .halt => []

/-- Every raw parameter is a word of the machine (R75). -/
def Instr.wf (p : Params) (i : Instr) : Bool :=
  i.params.all p.inRange

end Sys2Proof
end

