-- ==== Sys2Proof/Decode.lean ====
section
/-! DEFINITION. The decimal instruction format (spec/30_encoding.md R70 to R85), the instruction decoder, and after it
the encoder (R87). -/

namespace Sys2Proof

/-- Why the decoder refuses an instruction word. -/
inductive Reject where
  /-- The word is negative, or its low two digits are no opcode (R71, R72, R82). -/
  | unknownOpcode (w : Int)
  /-- The mode digit `m` of parameter `i` lies outside the parameter's admitted set (R77, R83). -/
  | invalidAddressMode (i m : Nat)
deriving DecidableEq, Repr

/-- Why no instruction can be read from a list of words. -/
inductive DecodeError where
  /-- The first word is refused. -/
  | reject (r : Reject)
  /-- The list ends before the instruction does (R74). -/
  | truncated
deriving DecidableEq, Repr

/-- What phase D extracts from the instruction word: the opcode and the legal modes of its parameters (R100). -/
inductive Header where
  | add (m1 m2 : ReadMode) (m3 : WriteMode)
  | mul (m1 m2 : ReadMode) (m3 : WriteMode)
  | input (m1 : WriteMode)
  | output (m1 : ReadMode)
  | jumpIfTrue (m1 m2 : ReadMode)
  | jumpIfFalse (m1 m2 : ReadMode)
  | lessThan (m1 m2 : ReadMode) (m3 : WriteMode)
  | equals (m1 m2 : ReadMode) (m3 : WriteMode)
  | adjustRelativeBase (m1 : ReadMode)
  | halt
deriving DecidableEq, Repr

/-- `dec[k](W)`, the decimal digit of weight 10^k (R9). -/
def dec (k w : Nat) : Nat := w / 10 ^ k % 10

/-- The mode of read operand `i` from its digit (R73, R77). -/
def readModeOf (i d : Nat) : Except Reject ReadMode :=
  match d with
  | 0 => .ok .position
  | 1 => .ok .immediate
  | 2 => .ok .relative
  | _ => .error (.invalidAddressMode i d)

/-- The mode of write target `i` from its digit (R73, R77). -/
def writeModeOf (i d : Nat) : Except Reject WriteMode :=
  match d with
  | 0 => .ok .position
  | 2 => .ok .relative
  | _ => .error (.invalidAddressMode i d)

/-- The modes of an instruction with read, read and write parameters, checked in that order (R74, R83, R103). -/
def threeModes (n : Nat) (h : ReadMode → ReadMode → WriteMode → Header) : Except Reject Header :=
  match readModeOf 1 (dec 2 n) with
  | .error r => .error r
  | .ok m1 =>
    match readModeOf 2 (dec 3 n) with
    | .error r => .error r
    | .ok m2 =>
      match writeModeOf 3 (dec 4 n) with
      | .error r => .error r
      | .ok m3 => .ok (h m1 m2 m3)

/-- The modes of an instruction with two read parameters, checked in order (R74, R83, R103). -/
def twoModes (n : Nat) (h : ReadMode → ReadMode → Header) : Except Reject Header :=
  match readModeOf 1 (dec 2 n) with
  | .error r => .error r
  | .ok m1 =>
    match readModeOf 2 (dec 3 n) with
    | .error r => .error r
    | .ok m2 => .ok (h m1 m2)

/-- The mode of an instruction with one read parameter (R74). -/
def oneReadMode (n : Nat) (h : ReadMode → Header) : Except Reject Header :=
  match readModeOf 1 (dec 2 n) with
  | .error r => .error r
  | .ok m1 => .ok (h m1)

/-- The mode of an instruction with one write parameter (R74). -/
def oneWriteMode (n : Nat) (h : WriteMode → Header) : Except Reject Header :=
  match writeModeOf 1 (dec 2 n) with
  | .error r => .error r
  | .ok m1 => .ok (h m1)

/-- Phase D for a word that is not negative: the opcode by its low two digits, then the mode digits the opcode has
(R72, R73, R81); every other digit is ignored (R84). -/
def decodeDigits (n : Nat) : Except Reject Header :=
  match n % 100 with
  | 1 => threeModes n .add
  | 2 => threeModes n .mul
  | 3 => oneWriteMode n .input
  | 4 => oneReadMode n .output
  | 5 => twoModes n .jumpIfTrue
  | 6 => twoModes n .jumpIfFalse
  | 7 => threeModes n .lessThan
  | 8 => threeModes n .equals
  | 9 => oneReadMode n .adjustRelativeBase
  | 99 => .ok .halt
  | _ => .error (.unknownOpcode n)

/-- Phase D: a negative word is an unknown opcode (R71), any other is read by its digits. -/
def decodeWord (w : Int) : Except Reject Header :=
  if w < 0 then .error (.unknownOpcode w) else decodeDigits w.toNat

/-- `n(OP)`, the number of parameter words (R74). -/
def Header.paramCount : Header → Nat
  | .add _ _ _ => 3
  | .mul _ _ _ => 3
  | .input _ => 1
  | .output _ => 1
  | .jumpIfTrue _ _ => 2
  | .jumpIfFalse _ _ => 2
  | .lessThan _ _ _ => 3
  | .equals _ _ _ => 3
  | .adjustRelativeBase _ => 1
  | .halt => 0

/-- The instruction of a decoded word and its parameter words, given in parameter order (R75). -/
def Header.assemble (h : Header) (ps : List Int) : Instr :=
  match h with
  | .add m1 m2 m3 => .add ⟨m1, ps.getD 0 0⟩ ⟨m2, ps.getD 1 0⟩ ⟨m3, ps.getD 2 0⟩
  | .mul m1 m2 m3 => .mul ⟨m1, ps.getD 0 0⟩ ⟨m2, ps.getD 1 0⟩ ⟨m3, ps.getD 2 0⟩
  | .input m1 => .input ⟨m1, ps.getD 0 0⟩
  | .output m1 => .output ⟨m1, ps.getD 0 0⟩
  | .jumpIfTrue m1 m2 => .jumpIfTrue ⟨m1, ps.getD 0 0⟩ ⟨m2, ps.getD 1 0⟩
  | .jumpIfFalse m1 m2 => .jumpIfFalse ⟨m1, ps.getD 0 0⟩ ⟨m2, ps.getD 1 0⟩
  | .lessThan m1 m2 m3 => .lessThan ⟨m1, ps.getD 0 0⟩ ⟨m2, ps.getD 1 0⟩ ⟨m3, ps.getD 2 0⟩
  | .equals m1 m2 m3 => .equals ⟨m1, ps.getD 0 0⟩ ⟨m2, ps.getD 1 0⟩ ⟨m3, ps.getD 2 0⟩
  | .adjustRelativeBase m1 => .adjustRelativeBase ⟨m1, ps.getD 0 0⟩
  | .halt => .halt

/-- The decoder, total on any list of words: the instruction at the front of the list and the words after it, or why
there is none (R70, R74). -/
def decode : List Int → Except DecodeError (Instr × List Int)
  | [] => .error .truncated
  | w :: ps =>
    match decodeWord w with
    | .error r => .error (.reject r)
    | .ok h =>
      if ps.length < h.paramCount then .error .truncated
      else .ok (h.assemble (ps.take h.paramCount), ps.drop h.paramCount)

/-! The opcode table's words (host interface). -/

/-- The signed 64-bit word of an unsigned one. DESIGN CHOICE (log entry 10): a word of this hardware has no bits
(R46), so the bits of the host's table words are laid out as 64-bit words in two's complement. -/
def signed64 (u : Nat) : Int :=
  if u < 2 ^ 63 then u else (u : Int) - (2 ^ 64 : Nat)

/-- The four words of an instruction whose bits are `w`: 64 bits a word, the first word lowest, every bit from `nbits`
up zero (log entry 10). -/
def tableWords (nbits w : Nat) : List Int :=
  let v := w % 2 ^ nbits
  [signed64 (v % 2 ^ 64), signed64 (v / 2 ^ 64 % 2 ^ 64), signed64 (v / 2 ^ 128 % 2 ^ 64),
    signed64 (v / 2 ^ 192 % 2 ^ 64)]

/-- The instruction the decoder reads from an instruction whose bits are `w`. -/
def decodeTableWord (nbits w : Nat) : Option Instr :=
  match decode (tableWords nbits w) with
  | .ok (i, _) => some i
  | .error _ => none

/-! The encoder (R87). -/

/-- The opcode of an instruction (R81). -/
def Instr.opcode : Instr → Nat
  | .add _ _ _ => 1
  | .mul _ _ _ => 2
  | .input _ => 3
  | .output _ => 4
  | .jumpIfTrue _ _ => 5
  | .jumpIfFalse _ _ => 6
  | .lessThan _ _ _ => 7
  | .equals _ _ _ => 8
  | .adjustRelativeBase _ => 9
  | .halt => 99

/-- The digit of a read mode (R73). -/
def ReadMode.digit : ReadMode → Nat
  | .position => 0
  | .immediate => 1
  | .relative => 2

/-- The digit of a write mode (R73). -/
def WriteMode.digit : WriteMode → Nat
  | .position => 0
  | .relative => 2

/-- The mode digits of an instruction for parameters 1, 2, 3; the mode of a parameter it lacks is written 0 (R87). -/
def Instr.modeDigits : Instr → Nat × Nat × Nat
  | .add a b c => (a.mode.digit, b.mode.digit, c.mode.digit)
  | .mul a b c => (a.mode.digit, b.mode.digit, c.mode.digit)
  | .input a => (a.mode.digit, 0, 0)
  | .output a => (a.mode.digit, 0, 0)
  | .jumpIfTrue a b => (a.mode.digit, b.mode.digit, 0)
  | .jumpIfFalse a b => (a.mode.digit, b.mode.digit, 0)
  | .lessThan a b c => (a.mode.digit, b.mode.digit, c.mode.digit)
  | .equals a b c => (a.mode.digit, b.mode.digit, c.mode.digit)
  | .adjustRelativeBase a => (a.mode.digit, 0, 0)
  | .halt => (0, 0, 0)

/-- The canonical instruction word, W = OP + 100 m1 + 1000 m2 + 10000 m3 (R87). -/
def Instr.headWord (i : Instr) : Int :=
  ((i.opcode + 100 * i.modeDigits.1 + 1000 * i.modeDigits.2.1 + 10000 * i.modeDigits.2.2 : Nat) : Int)

/-- The words of an instruction: its canonical word, then its raw parameters (R87). -/
def encode (i : Instr) : List Int := i.headWord :: i.params

/-- The length of an instruction in words, 1 + n(OP) (R74). -/
def Instr.length (i : Instr) : Nat := 1 + i.params.length

end Sys2Proof
end

