-- ==== Sys2Proof/Machine/Memory.lean ====
section
/-! DEFINITION. The memory of spec/20_memory.md: reading and writing one word, growth, the image a reset copies and the
snapshot the host reads. -/

namespace Sys2Proof.Machine

/-- The word listed for address `a`, or 0 where none is listed. -/
def lookup : List (Nat × Int) → Nat → Int
  | [], _ => 0
  | (b, v) :: rest, a => if a = b then v else lookup rest a

/-- The list with `v` listed for address `a`, at its place in address order. -/
def place : List (Nat × Int) → Nat → Int → List (Nat × Int)
  | [], a, v => [(a, v)]
  | (b, w) :: rest, a, v =>
    if a < b then (a, v) :: (b, w) :: rest
    else if a = b then (a, v) :: rest
    else (b, w) :: place rest a v

/-- `M[a]` (R10, R40). In a canonical memory it is 0 at every address from `len` up. -/
def Memory.read (m : Memory) (a : Nat) : Int := lookup m.cells a

/-- `M[a] <- v`, keeping the canonical form: a word that is 0 is not listed. -/
def Memory.store (m : Memory) (a : Nat) (v : Int) : Memory :=
  { m with cells := if v = 0 then m.cells.filter (fun c => c.1 ≠ a) else place m.cells a v }

/-- The first of `c`, twice `c`, four times `c`, … that is greater than `a`, looked for `fuel` times. -/
def capFrom : Nat → Nat → Nat → Nat
  | 0, c, _ => c
  | fuel + 1, c, a => if a < c then c else capFrom fuel (Config.growthFactor * c) a

/-- `cap(A)`: the smallest 64 * 2^n that is greater than `A` (R41). `A` doublings always reach it. -/
def cap (a : Nat) : Nat := capFrom a Config.growthBase a

/-- Whether memory may grow to length `n` under the ceiling MEM_CAP (R41). -/
def fits (memCap : Option Nat) (n : Nat) : Bool :=
  match memCap with
  | none => true
  | some c => decide (n ≤ c)

/-- `Grow(A)` (R41): the memory with `A` inside it, or none where that would pass the ceiling. -/
def Memory.grow? (memCap : Option Nat) (m : Memory) (a : Nat) : Option Memory :=
  if a < m.len then some m
  else if fits memCap (cap a) then some { m with len := cap a }
  else none

/-- The listed words of an image whose first word stands at address `a`. -/
def imageCells : Nat → List Int → List (Nat × Int)
  | _, [] => []
  | a, v :: rest => if v = 0 then imageCells (a + 1) rest else (a, v) :: imageCells (a + 1) rest

/-- The memory that holds a copy of an image (R23, R210). -/
def Memory.ofImage (image : List Int) : Memory :=
  { len := image.length, cells := imageCells 0 image }

/-- `M[0..L-1]` as a sequence (R59). -/
def Memory.contents (m : Memory) : List Int := (List.range m.len).map m.read

/-- The canonical form: addresses strictly rising, all below the length, no word listed that is 0. Equal memories are
then equal data. -/
abbrev Memory.wf (m : Memory) : Prop :=
  m.cells.Pairwise (fun x y => x.1 < y.1) ∧ ∀ c ∈ m.cells, c.1 < m.len ∧ c.2 ≠ 0

end Sys2Proof.Machine
end

