-- ==== Sys2Proof/Machine/Ops.lean ====
section
/-! DEFINITION. The operations every instruction shares: the updates of State, the memory primitives
(spec/20_memory.md R42, R43), taking a fault (spec/60_exceptions.md R182), how a step ends (spec/40_execution_cycle.md
R101, R106) and the PROVIDE request (spec/20_memory.md R61). -/

namespace Sys2Proof.Machine

/-! Updates of State. -/

def State.setMem (s : State) (m : Memory) : State := { s with mem := m }
def State.setPc (s : State) (n : Nat) : State := { s with pc := n }
def State.setRb (s : State) (v : Int) : State := { s with rb := v }
def State.setIq (s : State) (q : List Int) : State := { s with iq := q }
def State.setOq (s : State) (q : List Int) : State := { s with oq := q }
def State.setRunState (s : State) (r : RunState) : State := { s with runState := r }
def State.setProvider (s : State) (vs : List Int) (n : Nat) : State := { s with answers := vs, provides := n }

/-- The step ends with this response (R106). -/
def State.respond (s : State) (r : StepResponse) : State := { s with response := r }

/-! Faults. -/

/-- The cause code of a fault (R180). -/
def Cause.code : Cause → Nat
  | .none => 0
  | .unknownOpcode => 1
  | .invalidAddressMode => 2
  | .negativeAddress => 3
  | .outOfMemory => 4
  | .overflow => 7

/-- The numeric code of RUN_STATE (R27). -/
def RunState.code : RunState → Nat
  | .runnable => 0
  | .halted => 1
  | .faulted => 2

/-- What a fault writes into FAULT_CAUSE (R180). -/
def Trap.cause : Trap → Cause
  | .unknownOpcode _ => .unknownOpcode
  | .invalidAddressMode _ _ => .invalidAddressMode
  | .negativeAddress _ => .negativeAddress
  | .outOfMemory _ => .outOfMemory
  | .overflow _ => .overflow

/-- What a fault writes into FAULT_INFO (R181). -/
def Trap.info : Trap → FaultInfo
  | .unknownOpcode w => .value w
  | .invalidAddressMode i m => .modeDigit i m
  | .negativeAddress a => .value a
  | .outOfMemory a => .value (a : Int)
  | .overflow r => .value r

/-- The fault the decoder's refusal raises (R100). -/
def Trap.ofReject : Reject → Trap
  | .unknownOpcode w => .unknownOpcode w
  | .invalidAddressMode i m => .invalidAddressMode i m

/-- TAKING A FAULT, `raise F(info)` (R182): applied to the state as it was before the step's own effects, it changes
RUN_STATE and the fault registers only. There is no vector and no saved state; nothing returns from a fault but RESET
(R185). -/
def State.raise (s : State) (t : Trap) : State :=
  { s with
    runState := .faulted
    faultCause := t.cause
    faultPc := s.pc
    faultInfo := t.info
    response := .fault t.cause }

/-- How a step that began in `s` ends when its instruction does not complete (R101, R130, R182). -/
def State.stop (s : State) : Stop → Host.Outcome State Fault Refusal
  | .trap t => .next (s.raise t)
  | .emptyQueue => .next (s.respond .emptyQueue)
  | .refuse r => .refused r

/-- How a step that began in `s` ends: the tentative state is committed with the response CONTINUE, or nothing of it is
(R13, R101). -/
def State.conclude (s : State) : Except Stop State → Host.Outcome State Fault Refusal
  | .ok t => .next (t.respond .cont)
  | .error e => s.stop e

/-- The memory of a step that began in `s` and whose fetch has grown memory: kept when the step completed (CONTINUE or
HALT), undone with the rest when it did not (R101). -/
def State.atomically (s : State) : Host.Outcome State Fault Refusal → Host.Outcome State Fault Refusal
  | .next t => .next (if t.response = .cont ∨ t.response = .halt then t else t.setMem s.mem)
  | .fault f => .fault f
  | .refused r => .refused r

/-! Memory primitives. -/

/-- `WriteCheck(a)`: the checks every access makes, with growth (R42, R43). -/
def access (a : Int) (s : State) : Except Stop State :=
  if a < 0 then .error (.trap (.negativeAddress a))
  else
    match s.mem.grow? s.cfg.memCap a.toNat with
    | none => .error (.trap (.outOfMemory a.toNat))
    | some m => .ok (s.setMem m)

/-- `MemRead(a, 1)` (R42). -/
def memRead (a : Int) (s : State) : Except Stop (Int × State) :=
  match access a s with
  | .error e => .error e
  | .ok t => .ok (t.mem.read a.toNat, t)

/-- `MemWrite(a, 1, v)` (R43). -/
def memWrite (a : Int) (v : Int) (s : State) : Except Stop State :=
  match access a s with
  | .error e => .error e
  | .ok t => .ok (t.setMem (t.mem.store a.toNat v))

/-! Input. -/

/-- The host's answer to the next PROVIDE request: the first one in hand, or, where none is, a free word (R61; log
entry 4). -/
def State.nextAnswer (s : State) : Int :=
  match s.answers with
  | v :: _ => v
  | [] => s.cfg.toWord (Config.providerAnswer s.provides)

/-- `PROVIDE()` (R61): the answer does not pass through the input queue, and one that is not a word is refused. -/
def provide (s : State) : Except Stop (Int × State) :=
  if s.cfg.inRange s.nextAnswer then .ok (s.nextAnswer, s.setProvider s.answers.tail (s.provides + 1))
  else .error (.refuse .providerAnswerNotWord)

/-- The value INPUT takes: the front of the input queue, or as INPUT_EMPTY_POLICY says (R130). -/
def takeInput (s : State) : Except Stop (Int × State) :=
  match s.iq with
  | v :: rest => .ok (v, s.setIq rest)
  | [] =>
    match s.cfg.policy with
    | .provider => provide s
    | .fault => .error .emptyQueue

end Sys2Proof.Machine
end

