-- ==== Sys2Proof/Machine/Operands.lean ====
section
/-! DEFINITION. The address-mode multiplexer (spec/30_encoding.md R78 to R80). -/

namespace Sys2Proof

/-- The effective address of a read operand, none for an immediate (R78, R80). The sum is exact. -/
def ReadOperand.address? (rb : Int) (o : ReadOperand) : Option Int :=
  match o.mode with
  | .position => some o.raw
  | .immediate => none
  | .relative => some (o.raw + rb)

/-- The effective address of a write target (R79). The sum is exact. -/
def WriteTarget.address (rb : Int) (t : WriteTarget) : Int :=
  match t.mode with
  | .position => t.raw
  | .relative => t.raw + rb

end Sys2Proof

namespace Sys2Proof.Machine

/-- `ReadOp(i)` (R78): an immediate operand makes no access. -/
def readOp (o : ReadOperand) (s : State) : Except Stop (Int × State) :=
  match o.address? s.rb with
  | none => .ok (o.raw, s)
  | some a => memRead a s

/-- `WAddr(i)` (R79): the address, checked and grown to. -/
def wAddr (t : WriteTarget) (s : State) : Except Stop (Int × State) :=
  match access (t.address s.rb) s with
  | .error e => .error e
  | .ok s' => .ok (t.address s.rb, s')

end Sys2Proof.Machine
end

