-- ==== Sys2Proof/Machine/Alu.lean ====
section
/-! DEFINITION. The ALU (spec/40_execution_cycle.md R112, R113). Its zero tests NZ and Z are in Flags.lean. -/

namespace Sys2Proof.Machine

/-- The operations that give a word (R112). -/
inductive AluOp where
  | add
  | mul
  | lt
  | eq
deriving DecidableEq, Repr

/-- An exact result, or OVERFLOW when it is not a word (R112). -/
def inWordRange (p : Params) (r : Int) : Except Stop Int :=
  if p.inRange r then .ok r else .error (.trap (.overflow r))

/-- `alu(sel, a, b)` (R112): exact integer arithmetic, with no wrap-around and no saturation. -/
def alu (p : Params) (op : AluOp) (a b : Int) : Except Stop Int :=
  match op with
  | .add => inWordRange p (a + b)
  | .mul => inWordRange p (a * b)
  | .lt => .ok (if condLess a b then 1 else 0)
  | .eq => .ok (if condEqual a b then 1 else 0)

/-- The shape of ADD, MUL, LESS-THAN and EQUALS (R120, R121, R150, R151): read `a`, read `b`, resolve `c`, compute,
write, and go on four words after the instruction. -/
def threeOperand (op : AluOp) (a b : ReadOperand) (c : WriteTarget) (s : State) : Except Stop State := do
  let (x, s1) ← readOp a s
  let (y, s2) ← readOp b s1
  let (dst, s3) ← wAddr c s2
  let r ← alu s3.cfg op x y
  let s4 ← memWrite dst r s3
  pure (s4.setPc (s.pc + 4))

end Sys2Proof.Machine
end

