-- ==== Sys2Proof/Machine/Arithmetic.lean ====
section
/-! DEFINITION. ADD and MUL (spec/41_arithmetic.md). -/

namespace Sys2Proof.Machine

/-- ADD (R120). -/
def execAdd (a b : ReadOperand) (c : WriteTarget) (s : State) : Host.Outcome State Fault Refusal :=
  s.conclude (threeOperand .add a b c s)

/-- MUL (R121). -/
def execMul (a b : ReadOperand) (c : WriteTarget) (s : State) : Host.Outcome State Fault Refusal :=
  s.conclude (threeOperand .mul a b c s)

end Sys2Proof.Machine
end

