-- ==== Sys2Proof/Machine/Branch.lean ====
section
/-! DEFINITION. JUMP-IF-TRUE and JUMP-IF-FALSE (spec/43_branch.md). -/

namespace Sys2Proof.Machine

/-- The taken jump (R140, R142): the target operand is read, and a negative target faults. -/
def jumpTo (b : ReadOperand) (s : State) : Except Stop State := do
  let (t, s') ← readOp b s
  if t < 0 then .error (.trap (.negativeAddress t)) else pure (s'.setPc t.toNat)

/-- The shape of both jumps (R140, R141): `b` is resolved only when the jump is taken. -/
def jumpWhen (test : Int → Bool) (a b : ReadOperand) (s : State) : Except Stop State := do
  let (x, s1) ← readOp a s
  if test x then jumpTo b s1 else pure (s1.setPc (s.pc + 3))

/-- JUMP-IF-TRUE (R140). -/
def execJumpIfTrue (a b : ReadOperand) (s : State) : Host.Outcome State Fault Refusal :=
  s.conclude (jumpWhen condNonZero a b s)

/-- JUMP-IF-FALSE (R141). -/
def execJumpIfFalse (a b : ReadOperand) (s : State) : Host.Outcome State Fault Refusal :=
  s.conclude (jumpWhen condZero a b s)

end Sys2Proof.Machine
end

