-- ==== Sys2Proof/Machine/Compare.lean ====
section
/-! DEFINITION. LESS-THAN and EQUALS (spec/44_compare.md). -/

namespace Sys2Proof.Machine

/-- LESS-THAN (R150). -/
def execLessThan (a b : ReadOperand) (c : WriteTarget) (s : State) : Host.Outcome State Fault Refusal :=
  s.conclude (threeOperand .lt a b c s)

/-- EQUALS (R151). -/
def execEquals (a b : ReadOperand) (c : WriteTarget) (s : State) : Host.Outcome State Fault Refusal :=
  s.conclude (threeOperand .eq a b c s)

end Sys2Proof.Machine
end

