-- ==== Sys2Proof/Machine/Halt.lean ====
section
/-! DEFINITION. HALT (spec/46_halt.md). -/

namespace Sys2Proof.Machine

/-- HALT (R170): only RUN_STATE changes; `pc` stays on the HALT word. -/
def execHalt (s : State) : Host.Outcome State Fault Refusal :=
  .next ((s.setRunState .halted).respond .halt)

end Sys2Proof.Machine
end

