-- ==== Sys2Proof/Machine/Queue.lean ====
section
/-! DEFINITION. INPUT and OUTPUT (spec/42_queue_io.md). -/

namespace Sys2Proof.Machine

/-- The work of INPUT (R130): the target is checked before the queue is looked at (R103). -/
def inputTo (a : WriteTarget) (s : State) : Except Stop State := do
  let (dst, s1) ← wAddr a s
  let (v, s2) ← takeInput s1
  let s3 ← memWrite dst v s2
  pure (s3.setPc (s.pc + 2))

/-- INPUT (R130). -/
def execInput (a : WriteTarget) (s : State) : Host.Outcome State Fault Refusal :=
  s.conclude (inputTo a s)

/-- The work of OUTPUT (R131). -/
def outputOf (a : ReadOperand) (s : State) : Except Stop State := do
  let (x, s1) ← readOp a s
  pure ((s1.setOq (s1.oq ++ [x])).setPc (s.pc + 2))

/-- OUTPUT (R131). -/
def execOutput (a : ReadOperand) (s : State) : Host.Outcome State Fault Refusal :=
  s.conclude (outputOf a s)

end Sys2Proof.Machine
end

