-- ==== Sys2Proof/Machine/RelativeBase.lean ====
section
/-! DEFINITION. ADJUST-RELATIVE-BASE (spec/45_relative_base.md). -/

namespace Sys2Proof.Machine

/-- The work of ADJUST-RELATIVE-BASE (R160): the operand is resolved with the base as it was before. -/
def adjustBase (a : ReadOperand) (s : State) : Except Stop State := do
  let (x, s1) ← readOp a s
  let r ← alu s1.cfg .add s1.rb x
  pure ((s1.setRb r).setPc (s.pc + 2))

/-- ADJUST-RELATIVE-BASE (R160). -/
def execAdjustRelativeBase (a : ReadOperand) (s : State) : Host.Outcome State Fault Refusal :=
  s.conclude (adjustBase a s)

end Sys2Proof.Machine
end

