-- ==== Sys2Proof/Machine/Fetch.lean ====
section
/-! DEFINITION. Phases F, D and P of a step (spec/40_execution_cycle.md R100, R102): the instruction at the program
counter, with the memory its fetch has grown. -/

namespace Sys2Proof.Machine

/-- The `n` words from address `a` up, in order (R75). -/
def fetchWords : Nat → Nat → State → Except Stop (List Int × State)
  | 0, _, s => .ok ([], s)
  | n + 1, a, s => do
    let (v, s1) ← memRead a s
    let (vs, s2) ← fetchWords n (a + 1) s1
    pure (v :: vs, s2)

/-- The decoder's answer as a step sees it: a refused word is a fault (R100). -/
def decodeFetched (w : Int) : Except Stop Header :=
  match decodeWord w with
  | .error r => .error (.trap (Trap.ofReject r))
  | .ok h => .ok h

/-- The instruction at `pc`: the word, its decoding with every mode digit checked, then all its parameter words (R100,
R103). -/
def fetch (s : State) : Except Stop (Instr × State) := do
  let (w, s1) ← memRead s.pc s
  let h ← decodeFetched w
  let (ps, s2) ← fetchWords h.paramCount (s.pc + 1) s1
  pure (h.assemble ps, s2)

end Sys2Proof.Machine
end

