-- ==== Sys2Proof/Machine/Step.lean ====
section
/-! DEFINITION. One STEP (spec/40_execution_cycle.md R100, R107, R108), and how the host places one instruction. -/

namespace Sys2Proof.Machine

/-- STEP (R100): in Faulted and in Halted it only responds; otherwise it fetches the instruction at `pc` and runs it, and
what does not complete leaves nothing behind (R101). -/
def step (s : State) : Host.Outcome State Fault Refusal :=
  match s.runState with
  | .faulted => .next (s.respond (.fault s.faultCause))
  | .halted => .next (s.respond .stepAfterHalt)
  | .runnable =>
    match fetch s with
    | .error e => s.stop e
    | .ok (i, s') => s.atomically (exec i s')

/-- The memory with the given words stored from address `a` up, long enough to hold them. -/
def Memory.withWords (m : Memory) (a : Nat) : List Int → Memory
  | [] => m
  | v :: vs => Memory.withWords ({ m with len := max m.len (a + 1) }.store a v) (a + 1) vs

/-- The state with the instruction whose bits are `w` stored at `pc`, in a Runnable machine, so that the next step
fetches and runs it (log entries 8, 10, 18). -/
def State.withFetchWord (s : State) (nbits w : Nat) : State :=
  { s with
    mem := s.mem.withWords s.pc (tableWords nbits w)
    runState := .runnable
    faultCause := .none }

end Sys2Proof.Machine
end

