-- ==== Sys2Proof/Machine/Loader.lean ====
section
/-! DEFINITION. The loader's image format (spec/70_reset_and_hazards.md R215, R216): program text to an image, and an
image back to text. A pure function beside the datapath. -/

namespace Sys2Proof.Machine

/-- The characters trimmed at both ends. R215 says whitespace; PRESUMED (log entry 13) that this is space, tab, line
feed, vertical tab, form feed and carriage return. -/
def isBlank (c : Char) : Bool :=
  c == ' ' || (decide (9 ≤ c.toNat) && decide (c.toNat ≤ 13))

/-- The text without leading and trailing whitespace (R215). -/
def trim (t : List Char) : List Char :=
  ((t.dropWhile isBlank).reverse.dropWhile isBlank).reverse

/-- The text split at every comma; an empty text gives one empty token (R215). -/
def splitCommas : List Char → List (List Char)
  | [] => [[]]
  | c :: rest =>
    if c = ',' then [] :: splitCommas rest
    else
      match splitCommas rest with
      | [] => [[c]]
      | tok :: toks => (c :: tok) :: toks

/-- The value of a decimal digit. -/
def digitValue? (c : Char) : Option Nat :=
  if '0'.toNat ≤ c.toNat ∧ c.toNat ≤ '9'.toNat then some (c.toNat - '0'.toNat) else none

/-- The value of the digits read after a prefix of value `acc`. -/
def digitsFrom (acc : Nat) : List Char → Option Nat
  | [] => some acc
  | c :: rest =>
    match digitValue? c with
    | none => none
    | some d => digitsFrom (10 * acc + d) rest

/-- The value of one or more digits, `[0-9]+`. -/
def naturalOf : List Char → Option Nat
  | [] => none
  | c :: rest => digitsFrom 0 (c :: rest)

/-- The value of a token, `-?[0-9]+` (R215); leading zeros and `-0` are accepted. -/
def tokenValue : List Char → Option Int
  | [] => none
  | c :: rest =>
    if c = '-' then (naturalOf rest).map (fun n : Nat => -(n : Int))
    else (naturalOf (c :: rest)).map (fun n : Nat => (n : Int))

/-- The word of a token, none when it is no integer or no word (R215). -/
def tokenWord (p : Params) (tok : List Char) : Option Int :=
  match tokenValue tok with
  | none => none
  | some v => if p.inRange v then some v else none

/-- The words of all tokens in order, none when one fails: no partial result (R215). -/
def tokenWords (p : Params) : List (List Char) → Option (List Int)
  | [] => some []
  | tok :: toks =>
    match tokenWord p tok with
    | none => none
    | some v =>
      match tokenWords p toks with
      | none => none
      | some vs => some (v :: vs)

/-- The loader's `decode(text)`; none is a ParseError (R215). -/
def loadText (p : Params) (text : List Char) : Option (List Int) :=
  tokenWords p (splitCommas (trim text))

/-- The digit character of a number below ten. -/
def digitChar (d : Nat) : Char := Char.ofNat ('0'.toNat + d)

/-- The decimal digits of `n` in front of `acc`, with `fuel` digits at most to write. -/
def naturalDigits : Nat → Nat → List Char → List Char
  | 0, _, acc => acc
  | fuel + 1, n, acc =>
    if n < 10 then digitChar n :: acc else naturalDigits fuel (n / 10) (digitChar (n % 10) :: acc)

/-- The canonical decimal numeral of a natural number. -/
def naturalText (n : Nat) : List Char := naturalDigits (n + 1) n []

/-- The canonical decimal numeral of an integer: no leading zeros, no `-0` (R216). -/
def integerText (v : Int) : List Char :=
  if v < 0 then '-' :: naturalText v.natAbs else naturalText v.natAbs

/-- The words of an image as text, joined with commas (R216). -/
def imageText : List Int → List Char
  | [] => []
  | [v] => integerText v
  | v :: w :: rest => integerText v ++ ',' :: imageText (w :: rest)

end Sys2Proof.Machine
end

