-- ==== Sys2Proof/Machine/HostPort.lean ====
section
/-! DEFINITION. The host's transactions (spec/20_memory.md R57 to R60, spec/40_execution_cycle.md R110,
spec/46_halt.md R171, spec/70_reset_and_hazards.md R210 to R213), and the runs they make up (R111). Each is atomic and
stands between two steps. -/

namespace Sys2Proof.Machine

/-- HALTED (R171): whether the word at `pc` is a HALT. It grows nothing and faults on nothing. -/
def State.isHalted (s : State) : Bool :=
  decide (s.pc < s.mem.len) && decide (0 ≤ s.mem.read s.pc) && decide ((s.mem.read s.pc).toNat % 100 = 99)

/-- The machine after RESET with an image and an input it accepts (R210). Parameters and provider stay: they are fixed
for the life of the machine (R32; log entry 16). -/
def State.load (s : State) (image input : List Int) : State :=
  { s with
    mem := Memory.ofImage image
    pc := 0
    rb := 0
    iq := input
    oq := []
    runState := .runnable
    faultCause := .none
    faultPc := 0
    faultInfo := .value 0
    response := .idle }

/-- RESET (R210, R212): the new state, or none (REJECTED, no change) when an element is not a word. -/
def State.resetWith? (s : State) (image input : List Int) : Option State :=
  if image.all s.cfg.inRange && input.all s.cfg.inRange then some (s.load image input) else none

/-- IO_PUSH (R58): the new state, or none (REJECTED, no change) when the value is not a word. -/
def State.ioPush? (s : State) (v : Int) : Option State :=
  if s.cfg.inRange v then some (s.setIq (s.iq ++ [v])) else none

/-- IO_POP (R58): the front of the output queue and the new state, or none (EMPTY_QUEUE, no change). -/
def State.ioPop? (s : State) : Option (Int × State) :=
  match s.oq with
  | [] => none
  | v :: rest => some (v, s.setOq rest)

/-- What RUN responds: the first step response that is not CONTINUE, or that the model's fuel ran out (R110, I15; log
entry 14). -/
inductive RunReply where
  | response (r : StepResponse)
  | outOfFuel
deriving DecidableEq, Repr

/-- RUN under fuel (R110): at most `fuel` steps. -/
def run : Nat → State → Host.Outcome (RunReply × State) Fault Refusal
  | 0, s => .next (.outOfFuel, s)
  | fuel + 1, s =>
    match step s with
    | .fault f => .fault f
    | .refused r => .refused r
    | .next t => if t.response = .cont then run fuel t else .next (.response t.response, t)

/-- A host transaction (R57). PROVIDE goes the other way, inside a step (`provide`). -/
inductive Request where
  | reset (image input : List Int)
  | step
  | run (fuel : Nat)
  | halted
  | ioPush (v : Int)
  | ioPop
  | outCount
  | inCount
  | snapshot
  | status
deriving DecidableEq, Repr

/-- The result of a host transaction (R57). -/
inductive Reply where
  /-- RESET has no result. -/
  | done
  /-- REJECTED, of RESET and IO_PUSH (R58, R212). -/
  | rejected
  /-- OK, of IO_PUSH. -/
  | ok
  | stepped (r : StepResponse)
  | ran (r : RunReply)
  | truth (b : Bool)
  | word (v : Int)
  /-- EMPTY_QUEUE, of IO_POP. -/
  | emptyQueue
  | count (n : Nat)
  | image (ws : List Int)
  | status (r : RunState) (c : Cause) (pc : Nat) (i : FaultInfo)
deriving DecidableEq, Repr

/-- A host transaction on a machine: its result, and the state after it (R57). -/
def serve (q : Request) (s : State) : Host.Outcome (Reply × State) Fault Refusal :=
  match q with
  | .reset image input =>
    match s.resetWith? image input with
    | some t => .next (.done, t)
    | none => .next (.rejected, s)
  | .step =>
    match step s with
    | .next t => .next (.stepped t.response, t)
    | .fault f => .fault f
    | .refused r => .refused r
  | .run fuel =>
    match run fuel s with
    | .next (r, t) => .next (.ran r, t)
    | .fault f => .fault f
    | .refused r => .refused r
  | .halted => .next (.truth s.isHalted, s)
  | .ioPush v =>
    match s.ioPush? v with
    | some t => .next (.ok, t)
    | none => .next (.rejected, s)
  | .ioPop =>
    match s.ioPop? with
    | some (v, t) => .next (.word v, t)
    | none => .next (.emptyQueue, s)
  | .outCount => .next (.count s.oq.length, s)
  | .inCount => .next (.count s.iq.length, s)
  | .snapshot => .next (.image s.mem.contents, s)
  | .status => .next (.status s.runState s.faultCause s.faultPc s.faultInfo, s)

/-! Runs (R111). -/

/-- The transactions a host can make between two steps of one run: all but RESET, which begins another run, and STEP and
RUN, which are its steps. -/
def Request.isBetween : Request → Bool
  | .reset _ _ => false
  | .step => false
  | .run _ => false
  | .halted => true
  | .ioPush _ => true
  | .ioPop => true
  | .outCount => true
  | .inCount => true
  | .snapshot => true
  | .status => true

/-- The state after transactions between two steps, none if one of them cannot stand there. -/
def serveBetween : List Request → State → Option State
  | [], s => some s
  | q :: qs, s =>
    if q.isBetween then
      match serve q s with
      | .next (_, t) => serveBetween qs t
      | .fault _ => none
      | .refused _ => none
    else none

/-- The steps of a run with what the host does before each of them: the outcomes of the steps in order, and the state
after the last (R111). There is none where a step is refused. -/
def runWith : List (List Request) → State → Option (List StepResponse × State)
  | [], s => some ([], s)
  | qs :: rest, s =>
    match serveBetween qs s with
    | none => none
    | some u =>
      match step u with
      | .fault _ => none
      | .refused _ => none
      | .next t => (runWith rest t).map (fun r => (t.response :: r.1, r.2))

/-! Codes (R180). -/

/-- The code of a step's outcome: 0, NONE, for one that is a success (R180). -/
def StepResponse.code : StepResponse → Nat
  | .fault c => c.code
  | .emptyQueue => 5
  | .stepAfterHalt => 6
  | .idle => 0
  | .cont => 0
  | .halt => 0

/-- The code of a host transaction's result: that of the step for STEP and RUN, 5 for IO_POP's EMPTY_QUEUE, 0 for a
success, and none for REJECTED, which R180 says has no code, and for the model's own end of fuel. -/
def Reply.code? : Reply → Option Nat
  | .stepped r => some r.code
  | .ran (.response r) => some r.code
  | .ran .outOfFuel => none
  | .emptyQueue => some 5
  | .rejected => none
  | .done => some 0
  | .ok => some 0
  | .truth _ => some 0
  | .word _ => some 0
  | .count _ => some 0
  | .image _ => some 0
  | .status _ _ _ _ => some 0

end Sys2Proof.Machine
end

