-- ==== Sys2Proof/Safety.lean ====
section
/-! DEFINITION. The terms that claims about the machine are stated in: what an operand's value is and when it can be
had, how long memory is after some accesses, the form of program text (spec/70_reset_and_hazards.md R215), the invariant
of spec/10_state.md R33, and the ends of a run (spec/40_execution_cycle.md R111). -/

namespace Sys2Proof.Machine

/-! Accesses. -/

/-- An access at `a` neither is negative nor needs growth past the ceiling (R41, R42). -/
abbrev State.addressable (s : State) (a : Int) : Prop :=
  0 ≤ a ∧ (a.toNat < s.mem.len ∨ fits s.cfg.memCap (cap a.toNat) = true)

/-- The operand can be read: an immediate always, any other when its address can be accessed (R78, R80). -/
abbrev State.readable (s : State) (o : ReadOperand) : Prop :=
  ∀ a ∈ o.address? s.rb, s.addressable a

/-- The target can be written (R79). -/
abbrev State.writable (s : State) (t : WriteTarget) : Prop :=
  s.addressable (t.address s.rb)

/-- The value a read operand has in a state (R78). -/
def State.valueOf (s : State) (o : ReadOperand) : Int :=
  match o.address? s.rb with
  | none => o.raw
  | some a => s.mem.read a.toNat

/-- The addresses a read operand accesses: one, or none for an immediate. -/
def State.readAddresses (s : State) (o : ReadOperand) : List Nat :=
  match o.address? s.rb with
  | none => []
  | some a => [a.toNat]

/-- The address a write target names. -/
def State.writeAddress (s : State) (t : WriteTarget) : Nat := (t.address s.rb).toNat

/-- The length of a memory of length `len` after accesses at the given addresses, in order (R41). -/
def lengthAfter (len : Nat) : List Nat → Nat
  | [] => len
  | a :: rest => lengthAfter (if a < len then len else cap a) rest

/-- The memory after accesses at the given addresses (R41): its words are unchanged. -/
def Memory.grownFor (m : Memory) (addrs : List Nat) : Memory := { m with len := lengthAfter m.len addrs }

/-- The addresses of the `n` words from `a` up. -/
def wordsFrom (a n : Nat) : List Nat := (List.range n).map (a + ·)

/-- The addresses that phases O and X of an instruction access, in order: those of its read operands, the target of a jump
only where it is taken, then that of its write target (R103). -/
def State.accesses (s : State) : Instr → List Nat
  | .add a b c => s.readAddresses a ++ s.readAddresses b ++ [s.writeAddress c]
  | .mul a b c => s.readAddresses a ++ s.readAddresses b ++ [s.writeAddress c]
  | .input a => [s.writeAddress a]
  | .output a => s.readAddresses a
  | .jumpIfTrue a b => s.readAddresses a ++ if s.valueOf a = 0 then [] else s.readAddresses b
  | .jumpIfFalse a b => s.readAddresses a ++ if s.valueOf a = 0 then s.readAddresses b else []
  | .lessThan a b c => s.readAddresses a ++ s.readAddresses b ++ [s.writeAddress c]
  | .equals a b c => s.readAddresses a ++ s.readAddresses b ++ [s.writeAddress c]
  | .adjustRelativeBase a => s.readAddresses a
  | .halt => []

/-- The fault an access at `a` would raise, if any (R41, R42). -/
def State.accessFault (s : State) (a : Int) : Option Trap :=
  if a < 0 then some (.negativeAddress a)
  else if s.addressable a then none
  else some (.outOfMemory a.toNat)

/-- The first fault of accesses at the given addresses, in order (R103). -/
def State.firstFault (s : State) : List Int → Option Trap
  | [] => none
  | a :: rest =>
    match s.accessFault a with
    | some f => some f
    | none => s.firstFault rest

/-- The effective address of a read operand, as a list: empty for an immediate (R80). -/
def State.effective (s : State) (o : ReadOperand) : List Int := (o.address? s.rb).toList

/-! Encodings. -/

/-- The number of parameters of an opcode, none for a number that is no opcode (R72, R74). -/
def paramCountOf (op : Nat) : Option Nat :=
  match op with
  | 1 => some 3
  | 2 => some 3
  | 3 => some 1
  | 4 => some 1
  | 5 => some 2
  | 6 => some 2
  | 7 => some 3
  | 8 => some 3
  | 9 => some 1
  | 99 => some 0
  | _ => none

/-- Whether parameter `i` of an opcode is its write target: `c` of ADD, MUL, LESS-THAN and EQUALS, `a` of INPUT
(R74, R76). -/
def isWriteTarget (op i : Nat) : Bool :=
  (decide (i = 3) && (op == 1 || op == 2 || op == 7 || op == 8)) || (decide (i = 1) && op == 3)

/-- The admitted mode digits of parameter `i` of an opcode (R77). -/
def admitsDigit (op i d : Nat) : Bool :=
  if isWriteTarget op i then d == 0 || d == 2 else d == 0 || d == 1 || d == 2

/-! Frames. -/

/-- Everything but the memory, the program counter and the response is the same. -/
abbrev State.sameButMemPc (s t : State) : Prop :=
  t.cfg = s.cfg ∧ t.rb = s.rb ∧ t.iq = s.iq ∧ t.oq = s.oq ∧ t.runState = s.runState ∧ t.faultCause = s.faultCause ∧
    t.faultPc = s.faultPc ∧ t.faultInfo = s.faultInfo ∧ t.answers = s.answers ∧ t.provides = s.provides

/-- The registers and queues of the machine, and its memory, are the same: RUN_STATE, the fault registers and the
response may differ (R101). -/
abbrev State.nothingCommitted (s t : State) : Prop :=
  t.cfg = s.cfg ∧ t.mem = s.mem ∧ t.pc = s.pc ∧ t.rb = s.rb ∧ t.iq = s.iq ∧ t.oq = s.oq ∧ t.answers = s.answers ∧
    t.provides = s.provides

/-- The step or instruction that began in `s` took the fault with this cause and detail (R182). That nothing else
changed is the spec's decision (R101, D16), which 93_implementation_defined.md I4 warns not to read as a fact about the
software (log entry 12). -/
abbrev State.tookFault (s t : State) (c : Cause) (i : FaultInfo) : Prop :=
  t.runState = .faulted ∧ t.faultCause = c ∧ t.faultPc = s.pc ∧ t.faultInfo = i ∧ t.response = .fault c ∧
    s.nothingCommitted t

/-- The detail is one that R181 gives for the cause of a fault of a step that began in `s`: the instruction word, an index
and its digit that is not admitted, a negative integer, an address that only growth past the ceiling would reach, or an
integer that is not a word. -/
def State.detailFits (s : State) : Cause → FaultInfo → Prop
  | .none, _ => False
  | .unknownOpcode, d => d = .value (s.mem.read s.pc)
  | .invalidAddressMode, d => ∃ i, 1 ≤ i ∧ d = .modeDigit i (dec (i + 1) (s.mem.read s.pc).toNat) ∧
      admitsDigit ((s.mem.read s.pc).toNat % 100) i (dec (i + 1) (s.mem.read s.pc).toNat) = false
  | .negativeAddress, d => ∃ a : Int, a < 0 ∧ d = .value a
  | .outOfMemory, d => ∃ a : Nat, s.mem.len ≤ a ∧ (∃ c ∈ s.cfg.memCap, c < cap a) ∧ d = .value a
  | .overflow, d => ∃ r : Int, s.cfg.inRange r = false ∧ d = .value r

/-- RUN_STATE and the fault registers are the same. -/
abbrev State.sameRunState (s t : State) : Prop :=
  t.runState = s.runState ∧ t.faultCause = s.faultCause ∧ t.faultPc = s.faultPc ∧ t.faultInfo = s.faultInfo

/-! Program text. -/

/-- A character `[0-9]`. -/
abbrev isDigit (c : Char) : Prop := '0'.toNat ≤ c.toNat ∧ c.toNat ≤ '9'.toNat

/-- A token of the form `-?[0-9]+` (R215). -/
def isNumeral (tok : List Char) : Prop :=
  ∃ sign digits, tok = sign ++ digits ∧ (sign = [] ∨ sign = ['-']) ∧ digits ≠ [] ∧ ∀ c ∈ digits, isDigit c

/-! The invariant. -/

/-- What the machine keeps between steps (R29, R33), for parameters in the bounds of R7 and a memory in canonical
form. -/
structure State.Inv (s : State) : Prop where
  params : s.cfg.wf
  memory : s.mem.wf
  cells : ∀ c ∈ s.mem.cells, s.cfg.inRange c.2 = true
  base : s.cfg.inRange s.rb = true
  input : ∀ v ∈ s.iq, s.cfg.inRange v = true
  output : ∀ v ∈ s.oq, s.cfg.inRange v = true
  cause : s.faultCause ≠ .none ↔ s.runState = .faulted
  faultPc : s.runState = .faulted → s.faultPc = s.pc
  halted : s.runState = .halted → s.isHalted = true

/-! Runs and their ends (R110, R111). -/

/-- The state after `k` steps that all respond CONTINUE, with nothing of the host between them, as RUN makes them. -/
def continues : Nat → State → State → Prop
  | 0, s, t => t = s
  | k + 1, s, t => ∃ u, step s = .next u ∧ u.response = .cont ∧ continues k u t

/-- The state is one that an accepted RESET left. -/
def State.justReset (s : State) : Prop :=
  ∃ (before : State) (image input : List Int), before.resetWith? image input = some s

/-- The outcomes after which a run is not at its end: CONTINUE, and EMPTY_QUEUE, which suspends it. -/
def StepResponse.goesOn : StepResponse → Bool
  | .cont => true
  | .emptyQueue => true
  | .halt => false
  | .fault _ => false
  | .stepAfterHalt => false
  | .idle => false

/-- The run from the reset that left `s`, with the host's transactions before each step as given, has come to its last
step, whose outcome is `r` and which left `t`; no step before it was the run's end. -/
def comesTo (s : State) (script : List (List Request)) (r : StepResponse) (t : State) : Prop :=
  s.justReset ∧ ∃ rs, (∀ x ∈ rs, x.goesOn = true) ∧ runWith script s = some (rs ++ [r], t)

/-- The run ends normally: its last step returned HALT. -/
def endsNormally (s : State) (script : List (List Request)) : Prop := ∃ t, comesTo s script .halt t

/-- The run ends in a fault: its last step returned FAULT. -/
def endsInFault (s : State) (script : List (List Request)) : Prop := ∃ c t, comesTo s script (.fault c) t

/-- The run is suspended, not ended: its last step responded EMPTY_QUEUE, and a longer script may go on from there. -/
def isSuspended (s : State) (script : List (List Request)) : Prop := ∃ t, comesTo s script .emptyQueue t

/-- The run is a hang: however many of its steps are made, all return CONTINUE. -/
def hangs (s : State) (script : Nat → List Request) : Prop :=
  s.justReset ∧ ∀ n, ∃ t, runWith ((List.range n).map script) s = some (List.replicate n .cont, t)

end Sys2Proof.Machine
end

