-- ==== Sys2Proof/Certificates/Slice0/Obligations.lean ====
section
/-! DEFINITION. The statements about the machine, for the provers. Each formalises rules of spec/, named in its
docstring; nothing is proved here. -/

open Sys2Proof Sys2Proof.Machine

/-! Encoding. -/

/-- R87, R70, R75: the decoder reads every instruction back from the words it encodes to, and leaves the words after
it. -/
def Obligations.DecodeReadsBackEveryEncoding : Prop :=
  ∀ (i : Instr) (rest : List Int), decode (encode i ++ rest) = .ok (i, rest)

/-- R75, R7: every word of the encoding of a well-formed instruction is a word of the machine. -/
def Obligations.EncodedWordsAreWords : Prop :=
  ∀ (p : Params) (i : Instr), p.wf → i.wf p = true → ∀ w ∈ encode i, p.inRange w = true

/-- R70, R73, R74: a decoded word is not negative, its low two digits are the opcode, and the digits of the hundreds, the
thousands and the ten-thousands are the modes of the parameters the opcode has. -/
def Obligations.DecodedWordHasItsFields : Prop :=
  ∀ (w : Int) (h : Header) (ps : List Int), decodeWord w = .ok h →
    0 ≤ w ∧ (h.assemble ps).opcode = w.toNat % 100 ∧ paramCountOf (w.toNat % 100) = some h.paramCount ∧
      (1 ≤ h.paramCount → (h.assemble ps).modeDigits.1 = w.toNat / 100 % 10) ∧
      (2 ≤ h.paramCount → (h.assemble ps).modeDigits.2.1 = w.toNat / 1000 % 10) ∧
      (3 ≤ h.paramCount → (h.assemble ps).modeDigits.2.2 = w.toNat / 10000 % 10)

/-- R84: the digits of parameters the opcode lacks, and all digits from 10^5 up, are as if they were 0. -/
def Obligations.UnusedDigitsAreIgnored : Prop :=
  ∀ (w n : Nat), paramCountOf (w % 100) = some n →
    decodeWord (w : Int) = decodeWord ((w % 10 ^ (n + 2) : Nat) : Int)

/-- R71, R72, R82: the decoder refuses a word as an unknown opcode exactly when it is negative or its low two digits are
no opcode, and it reports the word. That a negative word is one is the spec's decision D8 (log entry 12). -/
def Obligations.UnknownOpcodesAreExactlyTheIllegalWords : Prop :=
  ∀ (w v : Int), decodeWord w = .error (.unknownOpcode v) ↔
    v = w ∧ (w < 0 ∨ w.toNat % 100 ∉ [1, 2, 3, 4, 5, 6, 7, 8, 9, 99])

/-- R73, R77, R83: the decoder refuses a word for a mode digit exactly when the digit is the one of a parameter the
opcode has and is not admitted there, and no lower parameter has an illegal digit. -/
def Obligations.LowestIllegalModeDigitIsReported : Prop :=
  ∀ (w : Int) (i m : Nat), decodeWord w = .error (.invalidAddressMode i m) ↔
    0 ≤ w ∧ ∃ n, paramCountOf (w.toNat % 100) = some n ∧ 1 ≤ i ∧ i ≤ n ∧ m = w.toNat / 10 ^ (i + 1) % 10 ∧
      admitsDigit (w.toNat % 100) i m = false ∧
      ∀ j, 1 ≤ j → j < i → admitsDigit (w.toNat % 100) j (w.toNat / 10 ^ (j + 1) % 10) = true

/-- R89: words of the spec's own decoding examples decode to the instructions it gives. -/
def Obligations.SpecDecodingExamplesDecode : Prop :=
  decode [1002, 7, 8, 9] = .ok (.mul ⟨.position, 7⟩ ⟨.immediate, 8⟩ ⟨.position, 9⟩, []) ∧
    decode [1102, 7, 8, 9] = .ok (.mul ⟨.immediate, 7⟩ ⟨.immediate, 8⟩ ⟨.position, 9⟩, []) ∧
    decode [109, 7] = .ok (.adjustRelativeBase ⟨.immediate, 7⟩, []) ∧
    decode [204, 7] = .ok (.output ⟨.relative, 7⟩, []) ∧
    decode [1001, 7, 8, 9] = .ok (.add ⟨.position, 7⟩ ⟨.immediate, 8⟩ ⟨.position, 9⟩, []) ∧
    decode [1008, 7, 8, 9] = .ok (.equals ⟨.position, 7⟩ ⟨.immediate, 8⟩ ⟨.position, 9⟩, []) ∧
    decode [101, 7, 8, 9] = .ok (.add ⟨.immediate, 7⟩ ⟨.position, 8⟩ ⟨.position, 9⟩, []) ∧
    decode [1006, 7, 8] = .ok (.jumpIfFalse ⟨.position, 7⟩ ⟨.immediate, 8⟩, []) ∧
    decode [1005, 7, 8] = .ok (.jumpIfTrue ⟨.position, 7⟩ ⟨.immediate, 8⟩, []) ∧
    decode [104, 7] = .ok (.output ⟨.immediate, 7⟩, []) ∧
    decode [3, 7] = .ok (.input ⟨.position, 7⟩, []) ∧
    decode [99] = .ok (.halt, [])

/-! Memory. -/

/-- R41: `cap(A)` has the form 64 * 2^n, is greater than `A`, and is the smallest such number. -/
def Obligations.CapIsLeastCapacityAbove : Prop :=
  ∀ a : Nat, (∃ n, cap a = 64 * 2 ^ n) ∧ a < cap a ∧ ∀ n : Nat, a < 64 * 2 ^ n → cap a ≤ 64 * 2 ^ n

/-- R41, for memories in canonical form: an address inside needs no growth; past the length, memory is extended with
zeros to `cap(A)` when that fits under MEM_CAP, and is not when it does not. -/
def Obligations.GrowthAppendsZerosToCapacity : Prop :=
  ∀ (ceiling : Option Nat) (m : Memory) (a : Nat), m.wf →
    (a < m.len → m.grow? ceiling a = some m) ∧
      (m.len ≤ a → (∀ c ∈ ceiling, cap a ≤ c) → ∃ m', m.grow? ceiling a = some m' ∧ m'.len = cap a ∧
        m'.contents = m.contents ++ List.replicate (cap a - m.len) 0) ∧
      (m.len ≤ a → (∃ c ∈ ceiling, c < cap a) → m.grow? ceiling a = none)

/-- R43, R41, R45: a write that is not stopped, whether or not it grows memory, leaves its word at its address, every other
word as it was, and a memory that covers the address and is no shorter. -/
def Obligations.MemWriteChangesOneWord : Prop :=
  ∀ (s t : State) (a : Int) (v : Int), memWrite a v s = .ok t →
    0 ≤ a ∧ (∀ x, t.mem.read x = if x = a.toNat then v else s.mem.read x) ∧ a.toNat < t.mem.len ∧
      s.mem.len ≤ t.mem.len ∧ t = s.setMem t.mem

/-- The model's canonical form (log entry 9): two memories in it with the same length and the same words are equal. -/
def Obligations.CanonicalMemoriesAreEqualByReads : Prop :=
  ∀ m m' : Memory, m.wf → m'.wf → m.len = m'.len → (∀ a, m.read a = m'.read a) → m = m'

/-- R41: the length of memory never falls in a step, and if it changes it becomes the capacity of some address, within
the ceiling. -/
def Obligations.StepGrowsMemoryOnlyToCapacities : Prop :=
  ∀ s t : State, step s = .next t →
    s.mem.len ≤ t.mem.len ∧
      (t.mem.len = s.mem.len ∨ ∃ a, s.mem.len ≤ a ∧ t.mem.len = cap a ∧ ∀ c ∈ s.cfg.memCap, cap a ≤ c)

/-- R41 (its derived sentence): after one access that is not stopped, after a list of accesses, and after a step that
returned CONTINUE or HALT, the length is the capacity of the largest address accessed when that lies past the length
before, and is unchanged otherwise. A step accesses its instruction's words, then what `State.accesses` lists. -/
def Obligations.LengthAfterAccessesIsCapOfLargest : Prop :=
  (∀ (s t : State) (a : Int), access a s = .ok t →
    t.mem.len = if a.toNat < s.mem.len then s.mem.len else cap a.toNat) ∧
    (∀ (len : Nat) (addrs : List Nat) (top : Nat), top ∈ addrs → (∀ a ∈ addrs, a ≤ top) →
      lengthAfter len addrs = if top < len then len else cap top) ∧
    ∀ (s t : State) (i : Instr) (top : Nat), s.runState = .runnable →
      decode ((wordsFrom s.pc i.length).map s.mem.read) = .ok (i, []) → step s = .next t →
      (t.response = .cont ∨ t.response = .halt) → top ∈ wordsFrom s.pc i.length ++ s.accesses i →
      (∀ a ∈ wordsFrom s.pc i.length ++ s.accesses i, a ≤ top) →
      t.mem.len = if top < s.mem.len then s.mem.len else cap top

/-! Results of the instructions. Each says when the instruction completes, what it writes, where it goes on, and that
nothing else changes. -/

/-- R120: ADD. -/
def Obligations.AddStoresTheSum : Prop :=
  ∀ (s : State) (a b : ReadOperand) (c : WriteTarget), s.readable a → s.readable b → s.writable c →
    s.cfg.inRange (s.valueOf a + s.valueOf b) = true →
    ∃ t, exec (.add a b c) s = .next t ∧ t.response = .cont ∧ t.pc = s.pc + 4 ∧ s.sameButMemPc t ∧
      (∀ x, t.mem.read x = if x = (c.address s.rb).toNat then s.valueOf a + s.valueOf b else s.mem.read x) ∧
      t.mem.len = lengthAfter s.mem.len (s.readAddresses a ++ s.readAddresses b ++ [(c.address s.rb).toNat])

/-- R121: MUL. -/
def Obligations.MulStoresTheProduct : Prop :=
  ∀ (s : State) (a b : ReadOperand) (c : WriteTarget), s.readable a → s.readable b → s.writable c →
    s.cfg.inRange (s.valueOf a * s.valueOf b) = true →
    ∃ t, exec (.mul a b c) s = .next t ∧ t.response = .cont ∧ t.pc = s.pc + 4 ∧ s.sameButMemPc t ∧
      (∀ x, t.mem.read x = if x = (c.address s.rb).toNat then s.valueOf a * s.valueOf b else s.mem.read x) ∧
      t.mem.len = lengthAfter s.mem.len (s.readAddresses a ++ s.readAddresses b ++ [(c.address s.rb).toNat])

/-- R150: LESS-THAN. -/
def Obligations.LessThanStoresTheComparison : Prop :=
  ∀ (s : State) (a b : ReadOperand) (c : WriteTarget), s.readable a → s.readable b → s.writable c →
    ∃ t, exec (.lessThan a b c) s = .next t ∧ t.response = .cont ∧ t.pc = s.pc + 4 ∧ s.sameButMemPc t ∧
      (∀ x, t.mem.read x =
        if x = (c.address s.rb).toNat then (if s.valueOf a < s.valueOf b then 1 else 0) else s.mem.read x) ∧
      t.mem.len = lengthAfter s.mem.len (s.readAddresses a ++ s.readAddresses b ++ [(c.address s.rb).toNat])

/-- R151: EQUALS. -/
def Obligations.EqualsStoresTheComparison : Prop :=
  ∀ (s : State) (a b : ReadOperand) (c : WriteTarget), s.readable a → s.readable b → s.writable c →
    ∃ t, exec (.equals a b c) s = .next t ∧ t.response = .cont ∧ t.pc = s.pc + 4 ∧ s.sameButMemPc t ∧
      (∀ x, t.mem.read x =
        if x = (c.address s.rb).toNat then (if s.valueOf a = s.valueOf b then 1 else 0) else s.mem.read x) ∧
      t.mem.len = lengthAfter s.mem.len (s.readAddresses a ++ s.readAddresses b ++ [(c.address s.rb).toNat])

/-- R130: INPUT with a value queued pops it into its target. -/
def Obligations.InputStoresTheQueuedValue : Prop :=
  ∀ (s : State) (a : WriteTarget) (v : Int) (rest : List Int), s.writable a → s.iq = v :: rest →
    ∃ t, exec (.input a) s = .next t ∧ t.response = .cont ∧ t.pc = s.pc + 2 ∧ t.iq = rest ∧
      (∀ x, t.mem.read x = if x = (a.address s.rb).toNat then v else s.mem.read x) ∧
      t.mem.len = lengthAfter s.mem.len [(a.address s.rb).toNat] ∧
      t.cfg = s.cfg ∧ t.rb = s.rb ∧ t.oq = s.oq ∧ s.sameRunState t ∧ t.answers = s.answers ∧ t.provides = s.provides

/-- R130, R61: INPUT with the queue empty under the policy PROVIDER stores the host's answer, which does not pass
through the queue. How the answers are held is the model's choice (log entry 4). -/
def Obligations.InputStoresTheProvidersAnswer : Prop :=
  ∀ (s : State) (a : WriteTarget) (v : Int) (rest : List Int), s.writable a → s.iq = [] →
    s.cfg.policy = .provider → s.answers = v :: rest → s.cfg.inRange v = true →
    ∃ t, exec (.input a) s = .next t ∧ t.response = .cont ∧ t.pc = s.pc + 2 ∧ t.iq = [] ∧ t.answers = rest ∧
      (∀ x, t.mem.read x = if x = (a.address s.rb).toNat then v else s.mem.read x) ∧
      t.mem.len = lengthAfter s.mem.len [(a.address s.rb).toNat] ∧
      t.cfg = s.cfg ∧ t.rb = s.rb ∧ t.oq = s.oq ∧ s.sameRunState t

/-- R130, R61, I5: with no answer in hand INPUT under the policy PROVIDER completes too, and stores a word, of which
nothing more is known. How a free answer is drawn is the model's choice (log entry 4). -/
def Obligations.InputStoresSomeWordWithoutAnswerInHand : Prop :=
  ∀ (s : State) (a : WriteTarget), s.writable a → s.iq = [] → s.cfg.policy = .provider → s.answers = [] →
    ∃ t v, exec (.input a) s = .next t ∧ t.response = .cont ∧ t.pc = s.pc + 2 ∧ t.iq = [] ∧ s.cfg.inRange v = true ∧
      (∀ x, t.mem.read x = if x = (a.address s.rb).toNat then v else s.mem.read x) ∧
      t.mem.len = lengthAfter s.mem.len [(a.address s.rb).toNat] ∧
      t.cfg = s.cfg ∧ t.rb = s.rb ∧ t.oq = s.oq ∧ s.sameRunState t

/-- R61: an answer that is not a word gets no step: it is refused. -/
def Obligations.InputRefusesAnswerThatIsNoWord : Prop :=
  ∀ (s : State) (a : WriteTarget) (v : Int) (rest : List Int), s.writable a → s.iq = [] →
    s.cfg.policy = .provider → s.answers = v :: rest → s.cfg.inRange v = false →
    exec (.input a) s = .refused .providerAnswerNotWord

/-- R130: INPUT with the queue empty under the policy FAULT responds EMPTY_QUEUE and changes nothing. -/
def Obligations.InputOnEmptyQueueRespondsEmptyQueue : Prop :=
  ∀ (s : State) (a : WriteTarget), s.writable a → s.iq = [] → s.cfg.policy = .fault →
    ∃ t, exec (.input a) s = .next t ∧ t.response = .emptyQueue ∧ s.nothingCommitted t ∧ s.sameRunState t

/-- R131: OUTPUT. -/
def Obligations.OutputAppendsTheOperand : Prop :=
  ∀ (s : State) (a : ReadOperand), s.readable a →
    ∃ t, exec (.output a) s = .next t ∧ t.response = .cont ∧ t.pc = s.pc + 2 ∧ t.oq = s.oq ++ [s.valueOf a] ∧
      (∀ x, t.mem.read x = s.mem.read x) ∧ t.mem.len = lengthAfter s.mem.len (s.readAddresses a) ∧
      t.cfg = s.cfg ∧ t.rb = s.rb ∧ t.iq = s.iq ∧ s.sameRunState t ∧ t.answers = s.answers ∧ t.provides = s.provides

/-- R140: JUMP-IF-TRUE goes to its target when the condition is not zero, and three words on, without looking at the
target operand, when it is. -/
def Obligations.JumpIfTrueJumpsWhenNotZero : Prop :=
  ∀ (s : State) (a b : ReadOperand), s.readable a →
    (s.valueOf a ≠ 0 → s.readable b → 0 ≤ s.valueOf b →
      ∃ t, exec (.jumpIfTrue a b) s = .next t ∧ t.response = .cont ∧ (t.pc : Int) = s.valueOf b ∧ s.sameButMemPc t ∧
        (∀ x, t.mem.read x = s.mem.read x) ∧
        t.mem.len = lengthAfter s.mem.len (s.readAddresses a ++ s.readAddresses b)) ∧
      (s.valueOf a = 0 →
        ∃ t, exec (.jumpIfTrue a b) s = .next t ∧ t.response = .cont ∧ t.pc = s.pc + 3 ∧ s.sameButMemPc t ∧
          (∀ x, t.mem.read x = s.mem.read x) ∧ t.mem.len = lengthAfter s.mem.len (s.readAddresses a))

/-- R141: JUMP-IF-FALSE, with the condition inverted. -/
def Obligations.JumpIfFalseJumpsWhenZero : Prop :=
  ∀ (s : State) (a b : ReadOperand), s.readable a →
    (s.valueOf a = 0 → s.readable b → 0 ≤ s.valueOf b →
      ∃ t, exec (.jumpIfFalse a b) s = .next t ∧ t.response = .cont ∧ (t.pc : Int) = s.valueOf b ∧ s.sameButMemPc t ∧
        (∀ x, t.mem.read x = s.mem.read x) ∧
        t.mem.len = lengthAfter s.mem.len (s.readAddresses a ++ s.readAddresses b)) ∧
      (s.valueOf a ≠ 0 →
        ∃ t, exec (.jumpIfFalse a b) s = .next t ∧ t.response = .cont ∧ t.pc = s.pc + 3 ∧ s.sameButMemPc t ∧
          (∀ x, t.mem.read x = s.mem.read x) ∧ t.mem.len = lengthAfter s.mem.len (s.readAddresses a))

/-- R160: ADJUST-RELATIVE-BASE; its operand is resolved with the base as it was. -/
def Obligations.AdjustRelativeBaseAddsTheOperand : Prop :=
  ∀ (s : State) (a : ReadOperand), s.readable a → s.cfg.inRange (s.rb + s.valueOf a) = true →
    ∃ t, exec (.adjustRelativeBase a) s = .next t ∧ t.response = .cont ∧ t.pc = s.pc + 2 ∧
      t.rb = s.rb + s.valueOf a ∧ (∀ x, t.mem.read x = s.mem.read x) ∧
      t.mem.len = lengthAfter s.mem.len (s.readAddresses a) ∧
      t.cfg = s.cfg ∧ t.iq = s.iq ∧ t.oq = s.oq ∧ s.sameRunState t ∧ t.answers = s.answers ∧ t.provides = s.provides

/-- R170: HALT changes RUN_STATE only. -/
def Obligations.HaltMovesToHalted : Prop :=
  ∀ s : State, ∃ t, exec .halt s = .next t ∧ t.runState = .halted ∧ t.response = .halt ∧ s.nothingCommitted t ∧
    t.faultCause = s.faultCause ∧ t.faultPc = s.faultPc ∧ t.faultInfo = s.faultInfo

/-! Faults of the instructions. -/

/-- R120, R121, R160, R112, R182: a sum or product that is not a word is the fault OVERFLOW with the exact result. -/
def Obligations.ResultsThatAreNoWordsOverflow : Prop :=
  ∀ (s : State) (a b : ReadOperand) (c : WriteTarget), s.readable a → s.readable b → s.writable c →
    (s.cfg.inRange (s.valueOf a + s.valueOf b) = false →
      ∃ t, exec (.add a b c) s = .next t ∧ s.tookFault t .overflow (.value (s.valueOf a + s.valueOf b))) ∧
      (s.cfg.inRange (s.valueOf a * s.valueOf b) = false →
        ∃ t, exec (.mul a b c) s = .next t ∧ s.tookFault t .overflow (.value (s.valueOf a * s.valueOf b))) ∧
      (s.cfg.inRange (s.rb + s.valueOf a) = false →
        ∃ t, exec (.adjustRelativeBase a) s = .next t ∧ s.tookFault t .overflow (.value (s.rb + s.valueOf a)))

/-- R142, R140, R141: a taken jump with a negative target faults with the target, and pc keeps its value. -/
def Obligations.TakenJumpToNegativeTargetFaults : Prop :=
  ∀ (s : State) (a b : ReadOperand), s.readable a → s.readable b → s.valueOf b < 0 →
    (s.valueOf a ≠ 0 →
      ∃ t, exec (.jumpIfTrue a b) s = .next t ∧ s.tookFault t .negativeAddress (.value (s.valueOf b))) ∧
      (s.valueOf a = 0 →
        ∃ t, exec (.jumpIfFalse a b) s = .next t ∧ s.tookFault t .negativeAddress (.value (s.valueOf b)))

/-- R103 point 5, R42, R43: ADD, MUL, LESS-THAN and EQUALS take the fault of the first of their operand addresses, in
the order a, b, c, that is negative or past the ceiling. -/
def Obligations.ThreeOperandInstructionsTakeFirstAddressFault : Prop :=
  ∀ (s : State) (a b : ReadOperand) (c : WriteTarget) (f : Trap),
    s.firstFault (s.effective a ++ s.effective b ++ [c.address s.rb]) = some f →
    ∀ i ∈ [Instr.add a b c, Instr.mul a b c, Instr.lessThan a b c, Instr.equals a b c],
      ∃ t, exec i s = .next t ∧ s.tookFault t f.cause f.info

/-- R103 points 5 to 7, R42, R43: INPUT, OUTPUT and ADJUST-RELATIVE-BASE take the fault of their operand address, INPUT
whatever the input queue holds. -/
def Obligations.OneOperandInstructionsTakeAddressFault : Prop :=
  ∀ (s : State) (f : Trap),
    (∀ a : WriteTarget, s.firstFault [a.address s.rb] = some f →
      ∃ t, exec (.input a) s = .next t ∧ s.tookFault t f.cause f.info) ∧
      ∀ a : ReadOperand, s.firstFault (s.effective a) = some f →
        (∃ t, exec (.output a) s = .next t ∧ s.tookFault t f.cause f.info) ∧
          ∃ t, exec (.adjustRelativeBase a) s = .next t ∧ s.tookFault t f.cause f.info

/-- R103 point 5, R140, R141: a jump takes the fault of its condition's address, and when it is taken the first fault of
the condition's and the target's. -/
def Obligations.JumpsTakeFirstAddressFault : Prop :=
  ∀ (s : State) (a b : ReadOperand) (f : Trap),
    (s.firstFault (s.effective a) = some f →
      (∃ t, exec (.jumpIfTrue a b) s = .next t ∧ s.tookFault t f.cause f.info) ∧
        ∃ t, exec (.jumpIfFalse a b) s = .next t ∧ s.tookFault t f.cause f.info) ∧
      (s.firstFault (s.effective a ++ s.effective b) = some f → s.valueOf a ≠ 0 →
        ∃ t, exec (.jumpIfTrue a b) s = .next t ∧ s.tookFault t f.cause f.info) ∧
      (s.firstFault (s.effective a ++ s.effective b) = some f → s.valueOf a = 0 →
        ∃ t, exec (.jumpIfFalse a b) s = .next t ∧ s.tookFault t f.cause f.info)

/-! Frames of the instructions, over every way they answer a next state. -/

/-- R104, R41, R101, R120, R121, R150, R151: ADD, MUL, LESS-THAN and EQUALS write no word but the one their target names
and change no base, queue or parameter. When they complete, RUN_STATE and the fault registers are as before, pc is 4
further, and the length is the one after the accesses at their operands and target; when they do not, memory, its
length and pc are as before. -/
def Obligations.ThreeOperandFrame : Prop :=
  ∀ (s t : State) (a b : ReadOperand) (c : WriteTarget),
    ∀ i ∈ [Instr.add a b c, Instr.mul a b c, Instr.lessThan a b c, Instr.equals a b c], exec i s = .next t →
      (∀ x, x ≠ (c.address s.rb).toNat → t.mem.read x = s.mem.read x) ∧ t.cfg = s.cfg ∧ t.rb = s.rb ∧ t.iq = s.iq ∧
        t.oq = s.oq ∧ t.answers = s.answers ∧ t.provides = s.provides ∧
        (t.response = .cont → s.sameRunState t ∧ t.pc = s.pc + 4 ∧
          t.mem.len =
            lengthAfter s.mem.len (s.readAddresses a ++ s.readAddresses b ++ [(c.address s.rb).toNat])) ∧
        (t.response ≠ .cont → s.nothingCommitted t)

/-- R104, R41, R101, R130, R61: INPUT writes no word but the one its target names, and changes no base, output queue or
parameter. When it completes, RUN_STATE and the fault registers are as before, pc is 2 further, the length is the one
after an access at its target, and it took the front of the input queue, or, with that empty, one answer of the
provider (held as log entry 4 says). When it does not complete, memory, pc and every queue are as before, and on
EMPTY_QUEUE RUN_STATE and the fault registers too. -/
def Obligations.InputFrame : Prop :=
  ∀ (s t : State) (a : WriteTarget), exec (.input a) s = .next t →
    (∀ x, x ≠ (a.address s.rb).toNat → t.mem.read x = s.mem.read x) ∧ t.cfg = s.cfg ∧ t.rb = s.rb ∧ t.oq = s.oq ∧
      (t.response = .cont → s.sameRunState t ∧ t.pc = s.pc + 2 ∧ t.iq = s.iq.tail ∧
        t.mem.len = lengthAfter s.mem.len [(a.address s.rb).toNat] ∧
        (s.iq ≠ [] → t.answers = s.answers ∧ t.provides = s.provides) ∧
        (s.iq = [] → t.answers = s.answers.tail ∧ t.provides = s.provides + 1)) ∧
      (t.response ≠ .cont → s.nothingCommitted t) ∧ (t.response = .emptyQueue → s.sameRunState t)

/-- R131, R140, R141, R160, R170, R41: OUTPUT, the jumps, ADJUST-RELATIVE-BASE and HALT write no word of memory; only
OUTPUT changes the output queue, only ADJUST-RELATIVE-BASE the relative base, and none the input queue. When they
complete, the length is the one after the accesses at the operands they read. -/
def Obligations.NonStoringFrame : Prop :=
  ∀ (s t : State) (a b : ReadOperand),
    ∀ i ∈ [Instr.output a, Instr.jumpIfTrue a b, Instr.jumpIfFalse a b, Instr.adjustRelativeBase a, Instr.halt],
      exec i s = .next t →
      (∀ x, t.mem.read x = s.mem.read x) ∧ t.cfg = s.cfg ∧ t.iq = s.iq ∧ t.answers = s.answers ∧
        t.provides = s.provides ∧ (i ≠ .output a → t.oq = s.oq) ∧ (i ≠ .adjustRelativeBase a → t.rb = s.rb) ∧
        (t.response = .cont → s.sameRunState t ∧ t.mem.len = lengthAfter s.mem.len (s.accesses i)) ∧
        (t.response ≠ .cont → s.nothingCommitted t)

/-- R22, R188: only ADJUST-RELATIVE-BASE changes the relative base, and only HALT moves to Halted. -/
def Obligations.OnlyTheirInstructionsWriteBaseAndRunState : Prop :=
  ∀ (i : Instr) (s t : State), exec i s = .next t →
    (t.rb ≠ s.rb → ∃ a, i = .adjustRelativeBase a) ∧
      (t.runState = .halted → s.runState ≠ .halted → i = .halt)

/-! Steps. -/

/-- R100, R102, R75: when the words at pc can be fetched and decode to an instruction, a step of a Runnable machine is
that instruction's, run on the memory grown for the fetch; what does not complete undoes the growth too (R101). -/
def Obligations.StepRunsTheDecodedInstruction : Prop :=
  ∀ (s : State) (i : Instr), s.runState = .runnable →
    decode ((wordsFrom s.pc i.length).map s.mem.read) = .ok (i, []) →
    (∀ x ∈ wordsFrom s.pc i.length, s.addressable (x : Int)) →
    step s = s.atomically (exec i (s.setMem (s.mem.grownFor (wordsFrom s.pc i.length))))

/-- R102, R72, R71, R82: a step whose fetched word is no instruction faults with the word, and the fetch's growth is
undone. -/
def Obligations.UnknownOpcodeStepFaults : Prop :=
  ∀ s : State, s.runState = .runnable → s.addressable (s.pc : Int) →
    (s.mem.read s.pc < 0 ∨ (s.mem.read s.pc).toNat % 100 ∉ [1, 2, 3, 4, 5, 6, 7, 8, 9, 99]) →
    ∃ t, step s = .next t ∧ s.tookFault t .unknownOpcode (.value (s.mem.read s.pc))

/-- R83, R103 point 3: a step whose fetched word has an illegal mode digit faults with the lowest illegal parameter's
index and digit, before any parameter word is read. -/
def Obligations.IllegalModeStepFaults : Prop :=
  ∀ (s : State) (n i : Nat), s.runState = .runnable → s.addressable (s.pc : Int) → 0 ≤ s.mem.read s.pc →
    paramCountOf ((s.mem.read s.pc).toNat % 100) = some n → 1 ≤ i → i ≤ n →
    admitsDigit ((s.mem.read s.pc).toNat % 100) i ((s.mem.read s.pc).toNat / 10 ^ (i + 1) % 10) = false →
    (∀ j, 1 ≤ j → j < i →
      admitsDigit ((s.mem.read s.pc).toNat % 100) j ((s.mem.read s.pc).toNat / 10 ^ (j + 1) % 10) = true) →
    ∃ t, step s = .next t ∧
      s.tookFault t .invalidAddressMode (.modeDigit i ((s.mem.read s.pc).toNat / 10 ^ (i + 1) % 10))

/-- R102, R103 points 1 and 4: a step whose instruction word, or a parameter word of a legal instruction word, lies past
the ceiling faults with the first such address. -/
def Obligations.FetchPastTheCeilingFaults : Prop :=
  ∀ s : State, s.runState = .runnable →
    (¬ s.addressable (s.pc : Int) → ∃ t, step s = .next t ∧ s.tookFault t .outOfMemory (.value (s.pc : Int))) ∧
      ∀ (h : Header) (k : Nat), decodeWord (s.mem.read s.pc) = .ok h → 1 ≤ k → k ≤ h.paramCount →
        (∀ x ∈ wordsFrom s.pc k, s.addressable (x : Int)) → ¬ s.addressable ((s.pc + k : Nat) : Int) →
        ∃ t, step s = .next t ∧ s.tookFault t .outOfMemory (.value ((s.pc + k : Nat) : Int))

/-- R182, R181, R101: a step that leaves a Runnable machine Faulted wrote RUN_STATE, a cause, the pc, and a detail that
R181 gives for that cause, responds FAULT with the cause, and changed nothing else. That the rest is unchanged is the
spec's decision D16 (I4; log entry 12). -/
def Obligations.FaultingStepCommitsNothing : Prop :=
  ∀ s t : State, s.runState = .runnable → step s = .next t → t.runState = .faulted →
    s.tookFault t t.faultCause t.faultInfo ∧ s.detailFits t.faultCause t.faultInfo ∧ t.faultCause ≠ .none

/-- R101, R130, R180: a step that responds EMPTY_QUEUE changes nothing, and comes only of an empty input queue under the
policy FAULT. -/
def Obligations.EmptyQueueStepChangesNothing : Prop :=
  ∀ s t : State, step s = .next t → t.response = .emptyQueue →
    s.runState = .runnable ∧ s.iq = [] ∧ s.cfg.policy = .fault ∧ s.nothingCommitted t ∧ s.sameRunState t

/-- R107: STEP in Halted responds STEP_AFTER_HALT and changes nothing. -/
def Obligations.StepInHaltedOnlyResponds : Prop :=
  ∀ s : State, s.runState = .halted →
    ∃ t, step s = .next t ∧ t.response = .stepAfterHalt ∧ s.nothingCommitted t ∧ s.sameRunState t

/-- R108: STEP in Faulted responds FAULT with the recorded cause and changes nothing. -/
def Obligations.StepInFaultedOnlyResponds : Prop :=
  ∀ s : State, s.runState = .faulted →
    ∃ t, step s = .next t ∧ t.response = .fault s.faultCause ∧ s.nothingCommitted t ∧ s.sameRunState t

/-- R170, R171, R213: in a Runnable machine whose HALTED query is true, STEP responds HALT and changes RUN_STATE
only. -/
def Obligations.StepOnHaltWordHalts : Prop :=
  ∀ s : State, s.runState = .runnable → s.isHalted = true →
    ∃ t, step s = .next t ∧ t.response = .halt ∧ t.runState = .halted ∧ s.nothingCommitted t ∧
      t.faultCause = s.faultCause ∧ t.faultPc = s.faultPc ∧ t.faultInfo = s.faultInfo

/-- R27: a step moves a machine (with memory in canonical form) to Halted only from Runnable, and only when the opcode at
pc is 99. -/
def Obligations.OnlyHaltWordMovesToHalted : Prop :=
  ∀ s t : State, s.mem.wf → s.runState ≠ .halted → step s = .next t → t.runState = .halted →
    s.runState = .runnable ∧ s.isHalted = true ∧ t.response = .halt

/-- R61, R106: a step always answers a next state, but when INPUT asks the provider and the host's answer is not a word,
which is refused. -/
def Obligations.StepIsRefusedOnlyForAnswerThatIsNoWord : Prop :=
  ∀ s : State, (∃ t, step s = .next t) ∨
    (step s = .refused .providerAnswerNotWord ∧ s.runState = .runnable ∧ s.iq = [] ∧ s.cfg.policy = .provider ∧
      ∃ v rest, s.answers = v :: rest ∧ s.cfg.inRange v = false)

/-- R109, R61: a step that made no PROVIDE request (the counter of requests is as before) does not depend on the host's
answers: with any others in hand it answers the same. A step with a value in the input queue, or under the policy FAULT,
is such a step. The answers and the counter are the model's (log entry 4). -/
def Obligations.StepIgnoresAnswersItDoesNotAskFor : Prop :=
  ∀ (s : State) (vs : List Int) (n : Nat),
    (∀ t, step s = .next t → t.provides = s.provides → step (s.setProvider vs n) = .next (t.setProvider vs n)) ∧
      ((s.iq ≠ [] ∨ s.cfg.policy = .fault) → ∃ t, step s = .next t ∧ t.provides = s.provides)

/-- R112: with WORD_BITS unbounded no step raises OVERFLOW. -/
def Obligations.UnboundedWordsNeverOverflow : Prop :=
  ∀ s t : State, s.cfg.wordBits = none → s.runState = .runnable → step s = .next t → t.runState = .faulted →
    t.faultCause ≠ .overflow

/-- R130, R103, R58: after a step that responded EMPTY_QUEUE, pushing a word and stepping again completes the
instruction. -/
def Obligations.PushAfterEmptyQueueLetsInputComplete : Prop :=
  ∀ (s t : State) (v : Int), step s = .next t → t.response = .emptyQueue → s.cfg.inRange v = true →
    ∃ u w, t.ioPush? v = some u ∧ step u = .next w ∧ w.response = .cont ∧ w.iq = [] ∧ w.pc = s.pc + 2

/-! The invariant. -/

/-- R21 to R33 with the canonical form of memory (log entry 9): every step keeps the invariant, and the memory's length
never falls. -/
def Obligations.StepKeepsTheInvariant : Prop :=
  ∀ s t : State, s.Inv → step s = .next t → t.Inv ∧ s.mem.len ≤ t.mem.len

/-- The invariant holds right after reset. -/
def Obligations.ResetStateHasTheInvariant : Prop := State.reset.Inv

/-- The invariant holds after every RESET the machine accepts (R210, R212). -/
def Obligations.AcceptedResetHasTheInvariant : Prop :=
  ∀ (s t : State) (image input : List Int), s.cfg.wf → s.resetWith? image input = some t → t.Inv

/-! Host transactions. -/

/-- R210, R212, R32: RESET with words installs a copy of the image and of the input, clears the rest, in every run state,
and a second one changes nothing; with any other element it is REJECTED and changes nothing. The parameters are fixed
for the life of the machine: that they are a field of State, and that RESET keeps it, is the model's choice (log entries
2 and 16). -/
def Obligations.ResetInstallsImageAndInput : Prop :=
  ∀ (s : State) (image input : List Int),
    ((∀ v ∈ image ++ input, s.cfg.inRange v = true) →
      ∃ t, serve (.reset image input) s = .next (.done, t) ∧ t.mem.contents = image ∧ t.mem.len = image.length ∧
        t.pc = 0 ∧ t.rb = 0 ∧ t.iq = input ∧ t.oq = [] ∧ t.runState = .runnable ∧ t.faultCause = .none ∧
        t.faultPc = 0 ∧ t.faultInfo = .value 0 ∧ t.cfg = s.cfg ∧
        serve (.reset image input) t = .next (.done, t)) ∧
      ((∃ v ∈ image ++ input, s.cfg.inRange v = false) → serve (.reset image input) s = .next (.rejected, s))

/-- R58: IO_PUSH appends a word to the input queue or is REJECTED; IO_POP removes the front of the output queue or
responds EMPTY_QUEUE; the counts are the lengths. -/
def Obligations.HostQueueTransactionsAreFifo : Prop :=
  ∀ (s : State) (v : Int),
    (s.cfg.inRange v = true → serve (.ioPush v) s = .next (.ok, s.setIq (s.iq ++ [v]))) ∧
      (s.cfg.inRange v = false → serve (.ioPush v) s = .next (.rejected, s)) ∧
      (s.oq = [] → serve .ioPop s = .next (.emptyQueue, s)) ∧
      (∀ rest, s.oq = v :: rest → serve .ioPop s = .next (.word v, s.setOq rest)) ∧
      serve .outCount s = .next (.count s.oq.length, s) ∧ serve .inCount s = .next (.count s.iq.length, s)

/-- R59, R60, R171: SNAPSHOT, STATUS and HALTED answer from the state and change nothing; a snapshot holds the words of
the addresses below L in order. -/
def Obligations.HostQueriesChangeNothing : Prop :=
  ∀ s : State,
    (∃ ws, serve .snapshot s = .next (.image ws, s) ∧ ws.length = s.mem.len ∧
      ∀ a, a < s.mem.len → ws[a]? = some (s.mem.read a)) ∧
      serve .status s = .next (.status s.runState s.faultCause s.faultPc s.faultInfo, s) ∧
      ∃ b, serve .halted s = .next (.truth b, s) ∧
        (b = true ↔ s.pc < s.mem.len ∧ 0 ≤ s.mem.read s.pc ∧ s.mem.read s.pc % 100 = 99)

/-- R110: RUN responds what the first step that does not respond CONTINUE responds, and the state it left. Fuel is the
model's (log entry 14). -/
def Obligations.RunStopsAtFirstStepThatDoesNotContinue : Prop :=
  ∀ (fuel : Nat) (s t : State) (r : StepResponse),
    run fuel s = .next (.response r, t) ↔
      ∃ k u, k < fuel ∧ continues k s u ∧ step u = .next t ∧ t.response = r ∧ r ≠ .cont

/-- R111, R106, R27: the outcome of a run's last step is CONTINUE, EMPTY_QUEUE, HALT or FAULT. After CONTINUE and
EMPTY_QUEUE the machine is Runnable, so the run is not at its end; after HALT it is Halted and after FAULT it is Faulted
with that cause, and then every later step responds STEP_AFTER_HALT, or the fault again, whatever the host does
between. -/
def Obligations.RunsEndAtHaltAndAtFaultOnly : Prop :=
  ∀ (s t : State) (script : List (List Request)) (r : StepResponse), comesTo s script r t →
    ((r = .cont ∨ r = .emptyQueue) ∧ t.runState = .runnable) ∨
      (r = .halt ∧ t.runState = .halted ∧ ∀ more rs u, runWith more t = some (rs, u) → ∀ x ∈ rs, x = .stepAfterHalt) ∨
      ∃ c, r = .fault c ∧ t.runState = .faulted ∧ t.faultCause = c ∧
        ∀ more rs u, runWith more t = some (rs, u) → ∀ x ∈ rs, x = .fault c

/-! The loader. -/

/-- R215, R216: the loader reads back the text of every image of words that is not empty, with or without a newline at
its end. -/
def Obligations.LoaderReadsBackImageText : Prop :=
  ∀ (p : Params) (ws : List Int), ws ≠ [] → (∀ w ∈ ws, p.inRange w = true) →
    loadText p (imageText ws) = some ws ∧ loadText p (imageText ws ++ ['\n']) = some ws

/-- R215: the loader drops the whitespace at both ends (its characters are log entry 13's), splits at every comma, and
gives nothing exactly when some token is not of the form -?[0-9]+ or has a value that is no word. -/
def Obligations.LoaderFailsWholeOnBadToken : Prop :=
  (∀ (p : Params) (text : List Char), loadText p text = none ↔ ∃ tok ∈ splitCommas (trim text), tokenWord p tok = none) ∧
    (∀ (p : Params) (tok : List Char),
      tokenWord p tok = none ↔ ¬ isNumeral tok ∨ ∃ v, tokenValue tok = some v ∧ p.inRange v = false) ∧
    (∀ text : List Char, List.intercalate [','] (splitCommas text) = text ∧ ∀ tok ∈ splitCommas text, ',' ∉ tok) ∧
    ∀ text : List Char, ∃ front back : List Char, text = front ++ trim text ++ back ∧
      (∀ c ∈ front ++ back, isBlank c = true) ∧ (∀ c ∈ (trim text).head?, isBlank c = false) ∧
      ∀ c ∈ (trim text).getLast?, isBlank c = false
end

