-- ==== Sys2Proof/Laws/Decode.lean ====
section
/-! SUPPORT. Small laws of the decoder and the encoder: what a digit is, which digits give which mode, and the length of
an instruction. -/

namespace Sys2Proof

@[simp] theorem readModeOf_digit (i : Nat) (m : ReadMode) : readModeOf i m.digit = .ok m := by
  cases m <;> rfl

@[simp] theorem writeModeOf_digit (i : Nat) (m : WriteMode) : writeModeOf i m.digit = .ok m := by
  cases m <;> rfl

theorem readModeOf_ok {i d : Nat} {m : ReadMode} (h : readModeOf i d = .ok m) : d = m.digit := by
  unfold readModeOf at h
  split at h <;> cases h <;> rfl

theorem writeModeOf_ok {i d : Nat} {m : WriteMode} (h : writeModeOf i d = .ok m) : d = m.digit := by
  unfold writeModeOf at h
  split at h <;> cases h <;> rfl

theorem readModeOf_error {i d : Nat} {r : Reject} (h : readModeOf i d = .error r) :
    2 < d ∧ r = .invalidAddressMode i d := by
  unfold readModeOf at h
  split at h
  · cases h
  · cases h
  · cases h
  · rename_i h0 h1 h2
    cases h
    exact ⟨by
      rcases d with _ | _ | _ | d
      · exact absurd rfl h0
      · exact absurd rfl h1
      · exact absurd rfl h2
      · omega, rfl⟩

theorem writeModeOf_error {i d : Nat} {r : Reject} (h : writeModeOf i d = .error r) :
    (d = 1 ∨ 2 < d) ∧ r = .invalidAddressMode i d := by
  unfold writeModeOf at h
  split at h
  · cases h
  · cases h
  · rename_i h0 h2
    cases h
    exact ⟨by
      rcases d with _ | _ | _ | d
      · exact absurd rfl h0
      · exact .inl rfl
      · exact absurd rfl h2
      · omega, rfl⟩

theorem ReadMode.digit_lt (m : ReadMode) : m.digit < 3 := by cases m <;> decide

theorem WriteMode.digit_lt (m : WriteMode) : m.digit < 3 := by cases m <;> decide

theorem dec_lt (k w : Nat) : dec k w < 10 := Nat.mod_lt _ (by decide)

/-- The digits of a canonical instruction word are the fields it was made of (R70, R87). -/
theorem digits_of_fields {op d1 d2 d3 : Nat} (h0 : op < 100) (h1 : d1 < 10) (h2 : d2 < 10) (h3 : d3 < 10) :
    (op + 100 * d1 + 1000 * d2 + 10000 * d3) % 100 = op ∧ dec 2 (op + 100 * d1 + 1000 * d2 + 10000 * d3) = d1 ∧
      dec 3 (op + 100 * d1 + 1000 * d2 + 10000 * d3) = d2 ∧ dec 4 (op + 100 * d1 + 1000 * d2 + 10000 * d3) = d3 := by
  simp only [dec]
  norm_num
  omega

@[simp] theorem encode_length (i : Instr) : (encode i).length = i.length := by
  simp [encode, Instr.length, Nat.add_comm]

/-- A decoded word's instruction has as many parameters as the word calls for (R74). -/
theorem Header.assemble_params_length (h : Header) (ps : List Int) :
    (h.assemble ps).params.length = h.paramCount := by
  cases h <;> rfl

end Sys2Proof
end

