-- ==== Sys2Proof/Laws/State.lean ====
section
/-! SUPPORT. What each named update of State does to each field, all by definition; then how updates of the memory
compose. -/

namespace Sys2Proof.Machine

variable (s : State)

@[simp] theorem State.setMem_cfg (m : Memory) : (s.setMem m).cfg = s.cfg := rfl
@[simp] theorem State.setMem_mem (m : Memory) : (s.setMem m).mem = m := rfl
@[simp] theorem State.setMem_pc (m : Memory) : (s.setMem m).pc = s.pc := rfl
@[simp] theorem State.setMem_rb (m : Memory) : (s.setMem m).rb = s.rb := rfl
@[simp] theorem State.setMem_iq (m : Memory) : (s.setMem m).iq = s.iq := rfl
@[simp] theorem State.setMem_oq (m : Memory) : (s.setMem m).oq = s.oq := rfl
@[simp] theorem State.setMem_runState (m : Memory) : (s.setMem m).runState = s.runState := rfl
@[simp] theorem State.setMem_faultCause (m : Memory) : (s.setMem m).faultCause = s.faultCause := rfl
@[simp] theorem State.setMem_faultPc (m : Memory) : (s.setMem m).faultPc = s.faultPc := rfl
@[simp] theorem State.setMem_faultInfo (m : Memory) : (s.setMem m).faultInfo = s.faultInfo := rfl
@[simp] theorem State.setMem_response (m : Memory) : (s.setMem m).response = s.response := rfl
@[simp] theorem State.setMem_answers (m : Memory) : (s.setMem m).answers = s.answers := rfl
@[simp] theorem State.setMem_provides (m : Memory) : (s.setMem m).provides = s.provides := rfl

@[simp] theorem State.setPc_cfg (n : Nat) : (s.setPc n).cfg = s.cfg := rfl
@[simp] theorem State.setPc_mem (n : Nat) : (s.setPc n).mem = s.mem := rfl
@[simp] theorem State.setPc_pc (n : Nat) : (s.setPc n).pc = n := rfl
@[simp] theorem State.setPc_rb (n : Nat) : (s.setPc n).rb = s.rb := rfl
@[simp] theorem State.setPc_iq (n : Nat) : (s.setPc n).iq = s.iq := rfl
@[simp] theorem State.setPc_oq (n : Nat) : (s.setPc n).oq = s.oq := rfl
@[simp] theorem State.setPc_runState (n : Nat) : (s.setPc n).runState = s.runState := rfl
@[simp] theorem State.setPc_faultCause (n : Nat) : (s.setPc n).faultCause = s.faultCause := rfl
@[simp] theorem State.setPc_faultPc (n : Nat) : (s.setPc n).faultPc = s.faultPc := rfl
@[simp] theorem State.setPc_faultInfo (n : Nat) : (s.setPc n).faultInfo = s.faultInfo := rfl
@[simp] theorem State.setPc_response (n : Nat) : (s.setPc n).response = s.response := rfl
@[simp] theorem State.setPc_answers (n : Nat) : (s.setPc n).answers = s.answers := rfl
@[simp] theorem State.setPc_provides (n : Nat) : (s.setPc n).provides = s.provides := rfl

@[simp] theorem State.setRb_cfg (v : Int) : (s.setRb v).cfg = s.cfg := rfl
@[simp] theorem State.setRb_mem (v : Int) : (s.setRb v).mem = s.mem := rfl
@[simp] theorem State.setRb_pc (v : Int) : (s.setRb v).pc = s.pc := rfl
@[simp] theorem State.setRb_rb (v : Int) : (s.setRb v).rb = v := rfl
@[simp] theorem State.setRb_iq (v : Int) : (s.setRb v).iq = s.iq := rfl
@[simp] theorem State.setRb_oq (v : Int) : (s.setRb v).oq = s.oq := rfl
@[simp] theorem State.setRb_runState (v : Int) : (s.setRb v).runState = s.runState := rfl
@[simp] theorem State.setRb_faultCause (v : Int) : (s.setRb v).faultCause = s.faultCause := rfl
@[simp] theorem State.setRb_faultPc (v : Int) : (s.setRb v).faultPc = s.faultPc := rfl
@[simp] theorem State.setRb_faultInfo (v : Int) : (s.setRb v).faultInfo = s.faultInfo := rfl
@[simp] theorem State.setRb_response (v : Int) : (s.setRb v).response = s.response := rfl
@[simp] theorem State.setRb_answers (v : Int) : (s.setRb v).answers = s.answers := rfl
@[simp] theorem State.setRb_provides (v : Int) : (s.setRb v).provides = s.provides := rfl

@[simp] theorem State.setIq_cfg (q : List Int) : (s.setIq q).cfg = s.cfg := rfl
@[simp] theorem State.setIq_mem (q : List Int) : (s.setIq q).mem = s.mem := rfl
@[simp] theorem State.setIq_pc (q : List Int) : (s.setIq q).pc = s.pc := rfl
@[simp] theorem State.setIq_rb (q : List Int) : (s.setIq q).rb = s.rb := rfl
@[simp] theorem State.setIq_iq (q : List Int) : (s.setIq q).iq = q := rfl
@[simp] theorem State.setIq_oq (q : List Int) : (s.setIq q).oq = s.oq := rfl
@[simp] theorem State.setIq_runState (q : List Int) : (s.setIq q).runState = s.runState := rfl
@[simp] theorem State.setIq_faultCause (q : List Int) : (s.setIq q).faultCause = s.faultCause := rfl
@[simp] theorem State.setIq_faultPc (q : List Int) : (s.setIq q).faultPc = s.faultPc := rfl
@[simp] theorem State.setIq_faultInfo (q : List Int) : (s.setIq q).faultInfo = s.faultInfo := rfl
@[simp] theorem State.setIq_response (q : List Int) : (s.setIq q).response = s.response := rfl
@[simp] theorem State.setIq_answers (q : List Int) : (s.setIq q).answers = s.answers := rfl
@[simp] theorem State.setIq_provides (q : List Int) : (s.setIq q).provides = s.provides := rfl

@[simp] theorem State.setOq_cfg (q : List Int) : (s.setOq q).cfg = s.cfg := rfl
@[simp] theorem State.setOq_mem (q : List Int) : (s.setOq q).mem = s.mem := rfl
@[simp] theorem State.setOq_pc (q : List Int) : (s.setOq q).pc = s.pc := rfl
@[simp] theorem State.setOq_rb (q : List Int) : (s.setOq q).rb = s.rb := rfl
@[simp] theorem State.setOq_iq (q : List Int) : (s.setOq q).iq = s.iq := rfl
@[simp] theorem State.setOq_oq (q : List Int) : (s.setOq q).oq = q := rfl
@[simp] theorem State.setOq_runState (q : List Int) : (s.setOq q).runState = s.runState := rfl
@[simp] theorem State.setOq_faultCause (q : List Int) : (s.setOq q).faultCause = s.faultCause := rfl
@[simp] theorem State.setOq_faultPc (q : List Int) : (s.setOq q).faultPc = s.faultPc := rfl
@[simp] theorem State.setOq_faultInfo (q : List Int) : (s.setOq q).faultInfo = s.faultInfo := rfl
@[simp] theorem State.setOq_response (q : List Int) : (s.setOq q).response = s.response := rfl
@[simp] theorem State.setOq_answers (q : List Int) : (s.setOq q).answers = s.answers := rfl
@[simp] theorem State.setOq_provides (q : List Int) : (s.setOq q).provides = s.provides := rfl

@[simp] theorem State.setRunState_cfg (r : RunState) : (s.setRunState r).cfg = s.cfg := rfl
@[simp] theorem State.setRunState_mem (r : RunState) : (s.setRunState r).mem = s.mem := rfl
@[simp] theorem State.setRunState_pc (r : RunState) : (s.setRunState r).pc = s.pc := rfl
@[simp] theorem State.setRunState_rb (r : RunState) : (s.setRunState r).rb = s.rb := rfl
@[simp] theorem State.setRunState_iq (r : RunState) : (s.setRunState r).iq = s.iq := rfl
@[simp] theorem State.setRunState_oq (r : RunState) : (s.setRunState r).oq = s.oq := rfl
@[simp] theorem State.setRunState_runState (r : RunState) : (s.setRunState r).runState = r := rfl
@[simp] theorem State.setRunState_faultCause (r : RunState) : (s.setRunState r).faultCause = s.faultCause := rfl
@[simp] theorem State.setRunState_faultPc (r : RunState) : (s.setRunState r).faultPc = s.faultPc := rfl
@[simp] theorem State.setRunState_faultInfo (r : RunState) : (s.setRunState r).faultInfo = s.faultInfo := rfl
@[simp] theorem State.setRunState_response (r : RunState) : (s.setRunState r).response = s.response := rfl
@[simp] theorem State.setRunState_answers (r : RunState) : (s.setRunState r).answers = s.answers := rfl
@[simp] theorem State.setRunState_provides (r : RunState) : (s.setRunState r).provides = s.provides := rfl

@[simp] theorem State.setProvider_cfg (vs : List Int) (n : Nat) : (s.setProvider vs n).cfg = s.cfg := rfl
@[simp] theorem State.setProvider_mem (vs : List Int) (n : Nat) : (s.setProvider vs n).mem = s.mem := rfl
@[simp] theorem State.setProvider_pc (vs : List Int) (n : Nat) : (s.setProvider vs n).pc = s.pc := rfl
@[simp] theorem State.setProvider_rb (vs : List Int) (n : Nat) : (s.setProvider vs n).rb = s.rb := rfl
@[simp] theorem State.setProvider_iq (vs : List Int) (n : Nat) : (s.setProvider vs n).iq = s.iq := rfl
@[simp] theorem State.setProvider_oq (vs : List Int) (n : Nat) : (s.setProvider vs n).oq = s.oq := rfl
@[simp] theorem State.setProvider_runState (vs : List Int) (n : Nat) : (s.setProvider vs n).runState = s.runState := rfl
@[simp] theorem State.setProvider_faultCause (vs : List Int) (n : Nat) : (s.setProvider vs n).faultCause = s.faultCause := rfl
@[simp] theorem State.setProvider_faultPc (vs : List Int) (n : Nat) : (s.setProvider vs n).faultPc = s.faultPc := rfl
@[simp] theorem State.setProvider_faultInfo (vs : List Int) (n : Nat) : (s.setProvider vs n).faultInfo = s.faultInfo := rfl
@[simp] theorem State.setProvider_response (vs : List Int) (n : Nat) : (s.setProvider vs n).response = s.response := rfl
@[simp] theorem State.setProvider_answers (vs : List Int) (n : Nat) : (s.setProvider vs n).answers = vs := rfl
@[simp] theorem State.setProvider_provides (vs : List Int) (n : Nat) : (s.setProvider vs n).provides = n := rfl

@[simp] theorem State.respond_cfg (r : StepResponse) : (s.respond r).cfg = s.cfg := rfl
@[simp] theorem State.respond_mem (r : StepResponse) : (s.respond r).mem = s.mem := rfl
@[simp] theorem State.respond_pc (r : StepResponse) : (s.respond r).pc = s.pc := rfl
@[simp] theorem State.respond_rb (r : StepResponse) : (s.respond r).rb = s.rb := rfl
@[simp] theorem State.respond_iq (r : StepResponse) : (s.respond r).iq = s.iq := rfl
@[simp] theorem State.respond_oq (r : StepResponse) : (s.respond r).oq = s.oq := rfl
@[simp] theorem State.respond_runState (r : StepResponse) : (s.respond r).runState = s.runState := rfl
@[simp] theorem State.respond_faultCause (r : StepResponse) : (s.respond r).faultCause = s.faultCause := rfl
@[simp] theorem State.respond_faultPc (r : StepResponse) : (s.respond r).faultPc = s.faultPc := rfl
@[simp] theorem State.respond_faultInfo (r : StepResponse) : (s.respond r).faultInfo = s.faultInfo := rfl
@[simp] theorem State.respond_response (r : StepResponse) : (s.respond r).response = r := rfl
@[simp] theorem State.respond_answers (r : StepResponse) : (s.respond r).answers = s.answers := rfl
@[simp] theorem State.respond_provides (r : StepResponse) : (s.respond r).provides = s.provides := rfl

@[simp] theorem State.raise_cfg (t : Trap) : (s.raise t).cfg = s.cfg := rfl
@[simp] theorem State.raise_mem (t : Trap) : (s.raise t).mem = s.mem := rfl
@[simp] theorem State.raise_pc (t : Trap) : (s.raise t).pc = s.pc := rfl
@[simp] theorem State.raise_rb (t : Trap) : (s.raise t).rb = s.rb := rfl
@[simp] theorem State.raise_iq (t : Trap) : (s.raise t).iq = s.iq := rfl
@[simp] theorem State.raise_oq (t : Trap) : (s.raise t).oq = s.oq := rfl
@[simp] theorem State.raise_runState (t : Trap) : (s.raise t).runState = .faulted := rfl
@[simp] theorem State.raise_faultCause (t : Trap) : (s.raise t).faultCause = t.cause := rfl
@[simp] theorem State.raise_faultPc (t : Trap) : (s.raise t).faultPc = s.pc := rfl
@[simp] theorem State.raise_faultInfo (t : Trap) : (s.raise t).faultInfo = t.info := rfl
@[simp] theorem State.raise_response (t : Trap) : (s.raise t).response = .fault t.cause := rfl
@[simp] theorem State.raise_answers (t : Trap) : (s.raise t).answers = s.answers := rfl
@[simp] theorem State.raise_provides (t : Trap) : (s.raise t).provides = s.provides := rfl

@[simp] theorem State.load_cfg (image input : List Int) : (s.load image input).cfg = s.cfg := rfl
@[simp] theorem State.load_mem (image input : List Int) : (s.load image input).mem = Memory.ofImage image := rfl
@[simp] theorem State.load_pc (image input : List Int) : (s.load image input).pc = 0 := rfl
@[simp] theorem State.load_rb (image input : List Int) : (s.load image input).rb = 0 := rfl
@[simp] theorem State.load_iq (image input : List Int) : (s.load image input).iq = input := rfl
@[simp] theorem State.load_oq (image input : List Int) : (s.load image input).oq = [] := rfl
@[simp] theorem State.load_runState (image input : List Int) : (s.load image input).runState = .runnable := rfl
@[simp] theorem State.load_faultCause (image input : List Int) : (s.load image input).faultCause = .none := rfl
@[simp] theorem State.load_faultPc (image input : List Int) : (s.load image input).faultPc = 0 := rfl
@[simp] theorem State.load_faultInfo (image input : List Int) : (s.load image input).faultInfo = .value 0 := rfl
@[simp] theorem State.load_response (image input : List Int) : (s.load image input).response = .idle := rfl
@[simp] theorem State.load_answers (image input : List Int) : (s.load image input).answers = s.answers := rfl
@[simp] theorem State.load_provides (image input : List Int) : (s.load image input).provides = s.provides := rfl

@[simp] theorem State.setMem_self : s.setMem s.mem = s := rfl

@[simp] theorem State.setMem_setMem (m m' : Memory) : (s.setMem m).setMem m' = s.setMem m' := rfl

@[simp] theorem State.raise_setMem (m : Memory) (t : Trap) : (s.setMem m).raise t = (s.raise t).setMem m := rfl

@[simp] theorem State.respond_setMem (m : Memory) (r : StepResponse) :
    (s.setMem m).respond r = (s.respond r).setMem m := rfl

end Sys2Proof.Machine
end

