-- ==== Sys2Proof/Laws/HostPort.lean ====
section
/-! SUPPORT. What the host can do between the steps of a run, and how a run begins with its first step
(spec/40_execution_cycle.md R111). -/

namespace Sys2Proof.Machine

/-- A transaction between two steps changes the queues at most. -/
theorem serve_isBetween {q : Request} {s t : State} {r : Reply} (hq : q.isBetween = true)
    (h : serve q s = .next (r, t)) : ∃ iq oq, t = (s.setIq iq).setOq oq := by
  have same : s = (s.setIq s.iq).setOq s.oq := rfl
  cases q with
  | reset => cases hq
  | step => cases hq
  | run => cases hq
  | ioPush v =>
    simp only [serve, State.ioPush?] at h
    split at h <;> cases h
    · rename_i e
      split at e <;> cases e
      exact ⟨s.iq ++ [v], s.oq, rfl⟩
    · exact ⟨_, _, same⟩
  | ioPop =>
    simp only [serve, State.ioPop?] at h
    split at h <;> cases h
    · rename_i e
      split at e <;> cases e
      exact ⟨s.iq, _, rfl⟩
    · exact ⟨_, _, same⟩
  | halted => cases h; exact ⟨_, _, same⟩
  | outCount => cases h; exact ⟨_, _, same⟩
  | inCount => cases h; exact ⟨_, _, same⟩
  | snapshot => cases h; exact ⟨_, _, same⟩
  | status => cases h; exact ⟨_, _, same⟩

/-- All that the host does between two steps changes the queues at most. -/
theorem serveBetween_some {qs : List Request} {s t : State} (h : serveBetween qs s = some t) :
    ∃ iq oq, t = (s.setIq iq).setOq oq := by
  induction qs generalizing s with
  | nil =>
    obtain rfl : s = t := by simpa [serveBetween] using h
    exact ⟨s.iq, s.oq, rfl⟩
  | cons q qs ih =>
    simp only [serveBetween] at h
    split at h
    · rename_i hq
      split at h
      · rename_i hs
        obtain ⟨iq, oq, rfl⟩ := serve_isBetween hq hs
        obtain ⟨iq', oq', rfl⟩ := ih h
        exact ⟨iq', oq', rfl⟩
      · cases h
      · cases h
    · cases h

/-- A run of at least one step is what the host does, one step, and a run of the rest. -/
theorem runWith_cons {qs : List Request} {rest : List (List Request)} {s v : State} {rs : List StepResponse} :
    runWith (qs :: rest) s = some (rs, v) ↔
      ∃ u t rs', serveBetween qs s = some u ∧ step u = .next t ∧ runWith rest t = some (rs', v) ∧
        rs = t.response :: rs' := by
  simp only [runWith]
  cases serveBetween qs s with
  | none => simp
  | some u =>
    cases hu : step u with
    | fault f => simp [hu]
    | refused r => simp [hu]
    | next t =>
      cases ht : runWith rest t with
      | none => simp [hu, ht]
      | some p =>
        obtain ⟨rs', v'⟩ := p
        simp only [hu, ht, Option.map_some, Option.some.injEq, Prod.mk.injEq]
        constructor
        · rintro ⟨rfl, rfl⟩
          exact ⟨u, t, rs', rfl, hu, ht, rfl⟩
        · rintro ⟨_, _, _, rfl, h, h', rfl⟩
          cases hu.symm.trans h
          cases ht.symm.trans h'
          exact ⟨rfl, rfl⟩

end Sys2Proof.Machine
end

