-- ==== Sys2Proof/Laws/Memory.lean ====
section
/-! SUPPORT. The laws of memory: reading after writing, that every operation keeps the canonical form, and what growth
does (spec/20_memory.md R41 to R45). -/

namespace Sys2Proof.Machine

/-! Lists of cells. -/

theorem lookup_place (cells : List (Nat × Int)) (a x : Nat) (v : Int) :
    lookup (place cells a v) x = if x = a then v else lookup cells x := by
  induction cells with
  | nil => simp [place, lookup]
  | cons c rest ih =>
    obtain ⟨b, w⟩ := c
    by_cases h1 : a < b
    · simp [place, lookup, h1]
    · by_cases h2 : a = b
      · subst h2
        by_cases hx : x = a <;> simp [place, lookup, hx]
      · by_cases hx : x = b
        · subst hx
          have : x ≠ a := fun e => h2 e.symm
          simp [place, lookup, h1, h2, this]
        · simp [place, lookup, h1, h2, hx, ih]

theorem lookup_filter_ne (cells : List (Nat × Int)) (a x : Nat) :
    lookup (cells.filter (fun c => c.1 ≠ a)) x = if x = a then 0 else lookup cells x := by
  induction cells with
  | nil => simp [lookup]
  | cons c rest ih =>
    obtain ⟨b, w⟩ := c
    by_cases hb : b = a
    · subst hb
      by_cases hx : x = b <;> simp_all [lookup]
    · by_cases hx : x = b
      · subst hx
        simp [lookup, hb]
      · simp_all [lookup]

theorem mem_place {cells : List (Nat × Int)} {a : Nat} {v : Int} {c : Nat × Int} (h : c ∈ place cells a v) :
    c = (a, v) ∨ c ∈ cells := by
  induction cells with
  | nil => simpa [place] using h
  | cons d rest ih =>
    obtain ⟨b, w⟩ := d
    by_cases h1 : a < b
    · simpa [place, h1] using h
    · by_cases h2 : a = b
      · subst h2
        simp only [place, lt_irrefl, if_true, if_false, List.mem_cons] at h
        exact h.imp_right (List.mem_cons_of_mem _)
      · simp only [place, h1, h2, if_false, List.mem_cons] at h
        rcases h with h | h
        · exact .inr (by simp [h])
        · exact (ih h).imp_right (List.mem_cons_of_mem _)

theorem place_pairwise {cells : List (Nat × Int)} (a : Nat) (v : Int)
    (h : cells.Pairwise (fun x y => x.1 < y.1)) : (place cells a v).Pairwise (fun x y => x.1 < y.1) := by
  induction cells with
  | nil => simp [place]
  | cons d rest ih =>
    obtain ⟨b, w⟩ := d
    obtain ⟨hd, hr⟩ := List.pairwise_cons.mp h
    by_cases h1 : a < b
    · simp only [place, h1, if_true]
      refine List.pairwise_cons.mpr ⟨fun c hc => ?_, h⟩
      rcases List.mem_cons.mp hc with rfl | hc
      · exact h1
      · exact h1.trans (hd c hc)
    · by_cases h2 : a = b
      · subst h2
        simp only [place, lt_irrefl, if_true, if_false]
        exact List.pairwise_cons.mpr ⟨hd, hr⟩
      · simp only [place, h1, h2, if_false]
        refine List.pairwise_cons.mpr ⟨fun c hc => ?_, ih hr⟩
        rcases mem_place hc with rfl | hc
        · change b < a
          omega
        · exact hd c hc

/-- A word listed in a list in address order is the one read there. -/
theorem lookup_of_mem {cells : List (Nat × Int)} (h : cells.Pairwise (fun x y => x.1 < y.1)) {c : Nat × Int}
    (hc : c ∈ cells) : lookup cells c.1 = c.2 := by
  induction cells with
  | nil => cases hc
  | cons d rest ih =>
    obtain ⟨hd, hr⟩ := List.pairwise_cons.mp h
    rcases List.mem_cons.mp hc with rfl | hc
    · simp [lookup]
    · have := hd c hc
      simp [lookup, Nat.ne_of_gt this, ih hr hc]

/-- A word that does not read as 0 is listed. -/
theorem mem_of_lookup {cells : List (Nat × Int)} {a : Nat} (h : lookup cells a ≠ 0) : (a, lookup cells a) ∈ cells := by
  induction cells with
  | nil => simp [lookup] at h
  | cons d rest ih =>
    obtain ⟨b, w⟩ := d
    by_cases hb : a = b
    · simp [lookup, hb]
    · simp only [lookup, hb, if_false] at h ⊢
      exact List.mem_cons_of_mem _ (ih h)

/-! Reading and writing. -/

@[simp] theorem Memory.store_len (m : Memory) (a : Nat) (v : Int) : (m.store a v).len = m.len := rfl

/-- A write is read back at its address, and every other address reads as before (R43, R45). -/
@[simp] theorem Memory.read_store (m : Memory) (a x : Nat) (v : Int) :
    (m.store a v).read x = if x = a then v else m.read x := by
  by_cases hv : v = 0
  · subst hv
    simpa [Memory.store, Memory.read] using lookup_filter_ne m.cells a x
  · simpa [Memory.store, Memory.read, hv] using lookup_place m.cells a x v

/-- A listed word lies below the length, so an address from the length up reads as 0 (R44). -/
theorem Memory.read_of_len_le {m : Memory} (h : m.wf) {a : Nat} (ha : m.len ≤ a) : m.read a = 0 := by
  by_contra hne
  have := (h.2 _ (mem_of_lookup hne)).1
  simp only at this
  omega

theorem mem_store {m : Memory} {a : Nat} {v : Int} {c : Nat × Int} (h : c ∈ (m.store a v).cells) :
    (c = (a, v) ∧ v ≠ 0) ∨ c ∈ m.cells := by
  by_cases hv : v = 0
  · simp only [Memory.store, hv, if_true] at h
    exact .inr (List.mem_filter.mp h).1
  · simp only [Memory.store, hv, if_false] at h
    exact (mem_place h).imp_left (fun e => ⟨e, hv⟩)

/-- A write below the length keeps the canonical form. -/
theorem Memory.wf_store {m : Memory} (h : m.wf) {a : Nat} (ha : a < m.len) (v : Int) : (m.store a v).wf := by
  constructor
  · by_cases hv : v = 0
    · simpa [Memory.store, hv] using h.1.filter _
    · simpa [Memory.store, hv] using place_pairwise a v h.1
  · intro c hc
    rcases mem_store hc with ⟨rfl, hv⟩ | hc
    · exact ⟨ha, hv⟩
    · exact h.2 c hc

/-! Capacities and growth. -/

theorem capFrom_gt (fuel c a : Nat) (h : a < c * 2 ^ fuel) : a < capFrom fuel c a := by
  induction fuel generalizing c with
  | zero => simpa [capFrom] using h
  | succ fuel ih =>
    by_cases hc : a < c
    · simp [capFrom, hc]
    · simp only [capFrom, hc, if_false, Config.growthFactor]
      exact ih _ (by rw [pow_succ] at h; nlinarith)

/-- `cap(A)` is greater than `A` (R41). -/
theorem cap_gt (a : Nat) : a < cap a := by
  refine capFrom_gt _ _ _ ?_
  have := Nat.lt_two_pow_self (n := a)
  simp only [Config.growthBase]
  omega

/-- Growth changes only the length, which covers the address afterwards and never falls (R41, R45). -/
theorem Memory.grow?_some {memCap : Option Nat} {m m' : Memory} {a : Nat} (h : m.grow? memCap a = some m') :
    m' = { m with len := lengthAfter m.len [a] } ∧ a < m'.len ∧ m.len ≤ m'.len ∧
      (a < m.len ∨ fits memCap (cap a) = true) := by
  unfold Memory.grow? at h
  by_cases h1 : a < m.len
  · simp only [h1, if_true, Option.some.injEq] at h
    subst h
    simp [lengthAfter, h1]
  · by_cases h2 : fits memCap (cap a) = true
    · simp only [h1, h2, if_true, if_false, Option.some.injEq] at h
      subst h
      have := cap_gt a
      simp only [lengthAfter, h1, if_false, h2, or_true, and_true, true_and]
      omega
    · simp [h1, h2] at h

/-- Growth succeeds inside the memory and under the ceiling (R41). -/
theorem Memory.grow?_of_fits {memCap : Option Nat} {m : Memory} {a : Nat}
    (h : a < m.len ∨ fits memCap (cap a) = true) :
    m.grow? memCap a = some { m with len := lengthAfter m.len [a] } := by
  unfold Memory.grow?
  by_cases h1 : a < m.len
  · simp [h1, lengthAfter]
  · simp [h1, h.resolve_left h1, lengthAfter]

/-- Growth fails exactly past the length and the ceiling (R41). -/
theorem Memory.grow?_eq_none {memCap : Option Nat} {m : Memory} {a : Nat} :
    m.grow? memCap a = none ↔ m.len ≤ a ∧ fits memCap (cap a) = false := by
  unfold Memory.grow?
  by_cases h1 : a < m.len
  · simp [h1, Nat.not_le.mpr h1]
  · by_cases h2 : fits memCap (cap a) = true <;> simp [h1, h2, Nat.not_lt.mp h1]

/-- A longer memory with the same words keeps the canonical form. -/
theorem Memory.wf_longer {m : Memory} (h : m.wf) {n : Nat} (hn : m.len ≤ n) : ({ m with len := n } : Memory).wf :=
  ⟨h.1, fun c hc => ⟨(h.2 c hc).1.trans_le hn, (h.2 c hc).2⟩⟩

/-- Growth keeps the canonical form. -/
theorem Memory.wf_grow? {memCap : Option Nat} {m m' : Memory} {a : Nat} (h : m.wf) (hg : m.grow? memCap a = some m') :
    m'.wf := by
  obtain ⟨rfl, -, hle, -⟩ := Memory.grow?_some hg
  exact Memory.wf_longer h hle

theorem lengthAfter_append (len : Nat) (xs ys : List Nat) :
    lengthAfter len (xs ++ ys) = lengthAfter (lengthAfter len xs) ys := by
  induction xs generalizing len with
  | nil => rfl
  | cons x xs ih => simp [lengthAfter, ih]

theorem le_lengthAfter (len : Nat) (xs : List Nat) : len ≤ lengthAfter len xs := by
  induction xs generalizing len with
  | nil => exact le_rfl
  | cons x xs ih =>
    have h := ih (if x < len then len else cap x)
    have := cap_gt x
    simp only [lengthAfter]
    split at h <;> split <;> omega

/-! Images. -/

theorem mem_imageCells {image : List Int} {a : Nat} {c : Nat × Int} (h : c ∈ imageCells a image) :
    a ≤ c.1 ∧ c.1 < a + image.length ∧ c.2 ≠ 0 ∧ c.2 ∈ image := by
  induction image generalizing a with
  | nil => cases h
  | cons v rest ih =>
    by_cases hv : v = 0
    · simp only [imageCells, hv, if_true] at h
      obtain ⟨h1, h2, h3, h4⟩ := ih h
      simp only [List.length_cons]
      exact ⟨by omega, by omega, h3, List.mem_cons_of_mem _ h4⟩
    · simp only [imageCells, hv, if_false, List.mem_cons] at h
      rcases h with rfl | h
      · simp [hv]
      · obtain ⟨h1, h2, h3, h4⟩ := ih h
        simp only [List.length_cons]
        exact ⟨by omega, by omega, h3, List.mem_cons_of_mem _ h4⟩

theorem imageCells_pairwise (image : List Int) (a : Nat) :
    (imageCells a image).Pairwise (fun x y => x.1 < y.1) := by
  induction image generalizing a with
  | nil => simp [imageCells]
  | cons v rest ih =>
    by_cases hv : v = 0
    · simpa [imageCells, hv] using ih (a + 1)
    · simp only [imageCells, hv, if_false]
      exact List.pairwise_cons.mpr ⟨fun c hc => Nat.lt_of_succ_le (mem_imageCells hc).1, ih (a + 1)⟩

/-- The copy of an image is in canonical form. -/
theorem Memory.wf_ofImage (image : List Int) : (Memory.ofImage image).wf := by
  refine ⟨imageCells_pairwise image 0, fun c hc => ?_⟩
  obtain ⟨-, h2, h3, -⟩ := mem_imageCells hc
  exact ⟨by simpa [Memory.ofImage] using h2, h3⟩

/-- The memory a single instruction is placed in keeps the canonical form. -/
theorem Memory.wf_withWords {m : Memory} (h : m.wf) (a : Nat) (ws : List Int) : (m.withWords a ws).wf := by
  induction ws generalizing m a with
  | nil => exact h
  | cons v vs ih =>
    refine ih (Memory.wf_store (Memory.wf_longer h (Nat.le_max_left _ _)) ?_ v) _
    exact Nat.lt_of_lt_of_le (Nat.lt_succ_self a) (Nat.le_max_right _ _)

/-- Reset memory is in canonical form. -/
theorem State.reset_mem_wf : State.reset.mem.wf := by decide

end Sys2Proof.Machine
end

