-- ==== Sys2Proof/Laws/Ops.lean ====
section
/-! SUPPORT. What each shared operation can do, said once: when it answers, and the state it then answers. Every access
only lengthens the memory, so the state after it is `s.setMem (s.mem.grownFor …)`. -/

namespace Sys2Proof.Machine

/-! Growth over a list of accesses. -/

@[simp] theorem Memory.grownFor_len (m : Memory) (xs : List Nat) : (m.grownFor xs).len = lengthAfter m.len xs := rfl

@[simp] theorem Memory.grownFor_cells (m : Memory) (xs : List Nat) : (m.grownFor xs).cells = m.cells := rfl

@[simp] theorem Memory.read_grownFor (m : Memory) (xs : List Nat) (a : Nat) : (m.grownFor xs).read a = m.read a := rfl

@[simp] theorem Memory.grownFor_nil (m : Memory) : m.grownFor [] = m := rfl

theorem Memory.grownFor_grownFor (m : Memory) (xs ys : List Nat) :
    (m.grownFor xs).grownFor ys = m.grownFor (xs ++ ys) := by
  simp [Memory.grownFor, lengthAfter_append]

theorem Memory.wf_grownFor {m : Memory} (h : m.wf) (xs : List Nat) : (m.grownFor xs).wf :=
  Memory.wf_longer h (le_lengthAfter _ _)

/-- After an access at `a` the memory covers `a`. -/
theorem lt_lengthAfter_self (len a : Nat) : a < lengthAfter len [a] := by
  have := cap_gt a
  simp only [lengthAfter]
  split <;> omega

theorem lengthAfter_of_lt {len a : Nat} (h : a < len) : lengthAfter len [a] = len := by
  simp [lengthAfter, h]

/-- Capacities only differ by doublings from the same base, so a capacity above an address is not below the address's
own (R41). -/
theorem capFrom_le_of_lt {fuel c a : Nat} {n : Nat} (h : a < c * 2 ^ n) : capFrom fuel c a ≤ c * 2 ^ n := by
  induction fuel generalizing c n with
  | zero => simpa [capFrom] using Nat.le_mul_of_pos_right c (Nat.two_pow_pos n)
  | succ fuel ih =>
    by_cases hc : a < c
    · simpa [capFrom, hc] using Nat.le_mul_of_pos_right c (Nat.two_pow_pos n)
    · cases n with
      | zero => simp at h; omega
      | succ n =>
        simp only [capFrom, hc, if_false, Config.growthFactor]
        have e : c * 2 ^ (n + 1) = 2 * c * 2 ^ n := by ring
        rw [e] at h ⊢
        exact ih h

theorem capFrom_eq (fuel c a : Nat) : ∃ n, capFrom fuel c a = c * 2 ^ n := by
  induction fuel generalizing c with
  | zero => exact ⟨0, by simp [capFrom]⟩
  | succ fuel ih =>
    by_cases hc : a < c
    · exact ⟨0, by simp [capFrom, hc]⟩
    · obtain ⟨n, hn⟩ := ih (Config.growthFactor * c)
      exact ⟨n + 1, by simp only [capFrom, hc, if_false, hn]; simp only [Config.growthFactor]; ring⟩

/-- An address below a capacity has a capacity no larger (R41). -/
theorem cap_le_cap {a b : Nat} (h : a < cap b) : cap a ≤ cap b := by
  obtain ⟨n, hn⟩ := capFrom_eq b Config.growthBase b
  unfold cap at h ⊢
  rw [hn] at h ⊢
  exact capFrom_le_of_lt h

theorem fits_mono {memCap : Option Nat} {m n : Nat} (h : m ≤ n) (hn : fits memCap n = true) :
    fits memCap m = true := by
  cases memCap with
  | none => rfl
  | some c => simp only [fits, decide_eq_true_eq] at hn ⊢; omega

/-- Accesses that succeed do not change which addresses can be accessed. -/
theorem addressable_grownFor {s : State} {xs : List Nat} (h : ∀ x ∈ xs, s.addressable (x : Int)) (a : Int) :
    (s.setMem (s.mem.grownFor xs)).addressable a ↔ s.addressable a := by
  have key : ∀ (ys : List Nat) (len : Nat), (∀ y ∈ ys, y < len ∨ fits s.cfg.memCap (cap y) = true) →
      ∀ n : Nat, (n < lengthAfter len ys ∨ fits s.cfg.memCap (cap n) = true) ↔
        (n < len ∨ fits s.cfg.memCap (cap n) = true) := by
    intro ys
    induction ys with
    | nil => intro len _ n; rfl
    | cons y ys ih =>
      intro len hy n
      have hlen : len ≤ if y < len then len else cap y := by
        have := cap_gt y
        split <;> omega
      have := ih (if y < len then len else cap y) (fun z hz => by
        rcases hy z (List.mem_cons_of_mem _ hz) with h | h
        · exact .inl (lt_of_lt_of_le h hlen)
        · exact .inr h) n
      rw [lengthAfter, this]
      by_cases h1 : y < len
      · simp [h1]
      · have h2 := (hy y (List.mem_cons_self ..)).resolve_left h1
        simp only [h1, if_false]
        constructor
        · rintro (h | h)
          · exact .inr (fits_mono (cap_le_cap h) h2)
          · exact .inr h
        · rintro (h | h)
          · have := cap_gt y
            exact .inl (by omega)
          · exact .inr h
  have := key xs s.mem.len (fun y hy => by simpa using (h y hy).2) a.toNat
  simp only [State.addressable, State.setMem_mem, State.setMem_cfg, Memory.grownFor_len, this]

/-! Memory primitives. -/

/-- An access that answers has checked its address and lengthened the memory to cover it (R41, R42). -/
theorem access_ok {a : Int} {s t : State} (h : access a s = .ok t) :
    s.addressable a ∧ t = s.setMem (s.mem.grownFor [a.toNat]) := by
  unfold access at h
  by_cases ha : a < 0
  · simp [ha] at h
  · simp only [ha, if_false] at h
    cases hg : s.mem.grow? s.cfg.memCap a.toNat with
    | none => simp [hg] at h
    | some m =>
      simp only [hg, Except.ok.injEq] at h
      obtain ⟨e, -, -, hf⟩ := Memory.grow?_some hg
      exact ⟨⟨by omega, hf⟩, by rw [← h, e]; rfl⟩

theorem access_of_addressable {a : Int} {s : State} (h : s.addressable a) :
    access a s = .ok (s.setMem (s.mem.grownFor [a.toNat])) := by
  simp [access, Int.not_lt.mpr h.1, Memory.grow?_of_fits h.2, Memory.grownFor]

/-- An access stops in one of two ways: a negative address, or growth past the ceiling (R41, R42). -/
theorem access_error {a : Int} {s : State} {e : Stop} (h : access a s = .error e) :
    (a < 0 ∧ e = .trap (.negativeAddress a)) ∨
      (0 ≤ a ∧ s.mem.len ≤ a.toNat ∧ fits s.cfg.memCap (cap a.toNat) = false ∧
        e = .trap (.outOfMemory a.toNat)) := by
  unfold access at h
  by_cases ha : a < 0
  · simp only [ha, if_true, Except.error.injEq] at h
    exact .inl ⟨ha, h.symm⟩
  · simp only [ha, if_false] at h
    cases hg : s.mem.grow? s.cfg.memCap a.toNat with
    | some m => simp [hg] at h
    | none =>
      simp only [hg, Except.error.injEq] at h
      obtain ⟨h1, h2⟩ := Memory.grow?_eq_none.mp hg
      exact .inr ⟨by omega, h1, h2, h.symm⟩

theorem access_of_negative {a : Int} (s : State) (h : a < 0) : access a s = .error (.trap (.negativeAddress a)) := by
  simp [access, h]

theorem access_of_too_far {a : Int} {s : State} (h : 0 ≤ a) (hn : ¬ s.addressable a) :
    access a s = .error (.trap (.outOfMemory a.toNat)) := by
  have hg : s.mem.grow? s.cfg.memCap a.toNat = none := by
    rw [Memory.grow?_eq_none]
    simp only [State.addressable, h, true_and, not_or, Nat.not_lt, Bool.not_eq_true] at hn
    exact hn
  simp [access, Int.not_lt.mpr h, hg]

theorem memRead_ok {a : Int} {s t : State} {v : Int} (h : memRead a s = .ok (v, t)) :
    s.addressable a ∧ v = s.mem.read a.toNat ∧ t = s.setMem (s.mem.grownFor [a.toNat]) := by
  unfold memRead at h
  cases ha : access a s with
  | error e => simp [ha] at h
  | ok u =>
    obtain ⟨h1, rfl⟩ := access_ok ha
    simp only [ha, Except.ok.injEq, Prod.mk.injEq] at h
    exact ⟨h1, h.1.symm, h.2.symm⟩

theorem memRead_of_addressable {a : Int} {s : State} (h : s.addressable a) :
    memRead a s = .ok (s.mem.read a.toNat, s.setMem (s.mem.grownFor [a.toNat])) := by
  simp [memRead, access_of_addressable h]

theorem memRead_of_access_error {a : Int} {s : State} {e : Stop} (h : access a s = .error e) :
    memRead a s = .error e := by
  simp [memRead, h]

theorem memRead_error {a : Int} {s : State} {e : Stop} (h : memRead a s = .error e) : access a s = .error e := by
  unfold memRead at h
  cases ha : access a s with
  | ok u => simp [ha] at h
  | error e' => simpa [ha] using h

theorem memWrite_ok {a : Int} {v : Int} {s t : State} (h : memWrite a v s = .ok t) :
    s.addressable a ∧ t = s.setMem ((s.mem.grownFor [a.toNat]).store a.toNat v) := by
  unfold memWrite at h
  cases ha : access a s with
  | error e => simp [ha] at h
  | ok u =>
    obtain ⟨h1, rfl⟩ := access_ok ha
    simp only [ha, Except.ok.injEq] at h
    exact ⟨h1, h.symm⟩

/-- A write to an address the memory covers never faults (R43, R104). -/
theorem memWrite_of_lt {a : Int} {v : Int} {s : State} (h0 : 0 ≤ a) (h : a.toNat < s.mem.len) :
    memWrite a v s = .ok (s.setMem (s.mem.store a.toNat v)) := by
  simp [memWrite, access_of_addressable (s := s) ⟨h0, .inl h⟩, Memory.grownFor, lengthAfter_of_lt h]

/-! Input. -/

/-- The value INPUT takes comes from the queue, or is the word the host answers (R130, R61). -/
theorem takeInput_ok {s t : State} {v : Int} (h : takeInput s = .ok (v, t)) :
    (∃ rest, s.iq = v :: rest ∧ t = s.setIq rest) ∨
      (s.iq = [] ∧ s.cfg.policy = .provider ∧ v = s.nextAnswer ∧ s.cfg.inRange v = true ∧
        t = s.setProvider s.answers.tail (s.provides + 1)) := by
  unfold takeInput at h
  cases hq : s.iq with
  | cons w rest =>
    simp only [hq, Except.ok.injEq, Prod.mk.injEq] at h
    exact .inl ⟨rest, by rw [h.1], h.2.symm⟩
  | nil =>
    cases hp : s.cfg.policy with
    | fault => simp [hq, hp] at h
    | provider =>
      by_cases hr : s.cfg.inRange s.nextAnswer = true
      · simp only [hq, hp, provide, hr, if_true, Except.ok.injEq, Prod.mk.injEq] at h
        exact .inr ⟨rfl, rfl, h.1.symm, h.1 ▸ hr, h.2.symm⟩
      · simp [hq, hp, provide, hr] at h

/-- INPUT's value is missing only with the queue empty: EMPTY_QUEUE, or a refused answer (R130, R61). -/
theorem takeInput_error {s : State} {e : Stop} (h : takeInput s = .error e) :
    s.iq = [] ∧ ((s.cfg.policy = .fault ∧ e = .emptyQueue) ∨
      (s.cfg.policy = .provider ∧ s.cfg.inRange s.nextAnswer = false ∧ e = .refuse .providerAnswerNotWord)) := by
  unfold takeInput at h
  cases hq : s.iq with
  | cons w rest => simp [hq] at h
  | nil =>
    cases hp : s.cfg.policy with
    | fault =>
      simp only [hq, hp, Except.error.injEq] at h
      exact ⟨rfl, .inl ⟨rfl, h.symm⟩⟩
    | provider =>
      by_cases hr : s.cfg.inRange s.nextAnswer = true
      · simp [hq, hp, provide, hr] at h
      · simp only [hq, hp, provide, hr, if_false, Except.error.injEq, Bool.false_eq_true] at h
        exact ⟨rfl, .inr ⟨rfl, by simpa using hr, h.symm⟩⟩

/-- A free answer is always a word (log entry 4). -/
theorem inRange_toWord (p : Params) (v : Int) : p.inRange (p.toWord v) = true := by
  cases hb : p.wordBits with
  | none => simp [Params.inRange, hb]
  | some b =>
    simp only [Params.inRange, Params.toWord, hb, Bool.and_eq_true, decide_eq_true_eq]
    cases b with
    | zero => simp
    | succ b =>
      have hpos : 0 < 2 ^ (b + 1) := Nat.two_pow_pos _
      have h1 := Int.le_bmod (x := v) (m := 2 ^ (b + 1)) hpos
      have h2 := Int.bmod_lt (x := v) (m := 2 ^ (b + 1)) hpos
      have e : (2 ^ (b + 1) : Nat) = 2 * 2 ^ b := by ring
      rw [e] at h1 h2 ⊢
      simp only [Nat.add_sub_cancel]
      generalize 2 ^ b = k at *
      push_cast at h1 h2 ⊢
      omega

/-- Every word is its own image, so a free answer may be any word (log entry 4). -/
theorem toWord_of_inRange {p : Params} {v : Int} (hp : p.wf) (h : p.inRange v = true) : p.toWord v = v := by
  cases hb : p.wordBits with
  | none => simp [Params.toWord, hb]
  | some b =>
    have h64 := hp.1 b (by simp [hb])
    obtain ⟨k, rfl⟩ : ∃ k, b = k + 1 := ⟨b - 1, by omega⟩
    simp only [Params.inRange, hb, Bool.and_eq_true, decide_eq_true_eq, Nat.add_sub_cancel] at h
    simp only [Params.toWord, hb]
    have e : (2 ^ (k + 1) : Nat) = 2 * 2 ^ k := by ring
    rw [e]
    generalize 2 ^ k = m at *
    rw [Int.bmod_eq_of_le] <;> push_cast <;> omega

/-! The end of a step. -/

theorem State.conclude_ok (s t : State) : s.conclude (.ok t) = .next (t.respond .cont) := rfl

theorem State.conclude_error (s : State) (e : Stop) : s.conclude (.error e) = s.stop e := rfl

/-- How a step that began in `s` can end in a next state: committed, or with nothing but the run state, the fault
registers and the response changed (R101). -/
theorem State.conclude_next {s t : State} {r : Except Stop State} (h : s.conclude r = .next t) :
    (∃ u, r = .ok u ∧ t = u.respond .cont) ∨ (∃ f, r = .error (.trap f) ∧ t = s.raise f) ∨
      (r = .error .emptyQueue ∧ t = s.respond .emptyQueue) := by
  cases r with
  | ok u => exact .inl ⟨u, rfl, by simpa [State.conclude] using h.symm⟩
  | error e =>
    cases e with
    | trap f => exact .inr (.inl ⟨f, rfl, by simpa [State.conclude, State.stop] using h.symm⟩)
    | emptyQueue => exact .inr (.inr ⟨rfl, by simpa [State.conclude, State.stop] using h.symm⟩)
    | refuse r => simp [State.conclude, State.stop] at h

end Sys2Proof.Machine
end

