-- ==== Sys2Proof/Laws/Operands.lean ====
section
/-! SUPPORT. What operand resolution, the ALU and the instruction shapes over them can do (spec/30_encoding.md R78, R79;
spec/40_execution_cycle.md R112): one lemma for when each answers, one for what it answered. -/

namespace Sys2Proof.Machine

theorem readOp_of_readable {o : ReadOperand} {s : State} (h : s.readable o) :
    readOp o s = .ok (s.valueOf o, s.setMem (s.mem.grownFor (s.readAddresses o))) := by
  unfold readOp State.valueOf State.readAddresses
  cases ho : o.address? s.rb with
  | none => simp
  | some a => simp [memRead_of_addressable (h a ho)]

theorem readOp_ok {o : ReadOperand} {s t : State} {v : Int} (h : readOp o s = .ok (v, t)) :
    s.readable o ∧ v = s.valueOf o ∧ t = s.setMem (s.mem.grownFor (s.readAddresses o)) := by
  unfold readOp at h
  cases ho : o.address? s.rb with
  | none =>
    simp only [ho, Except.ok.injEq, Prod.mk.injEq] at h
    obtain ⟨rfl, rfl⟩ := h
    exact ⟨by simp [State.readable, ho], by simp [State.valueOf, ho], by simp [State.readAddresses, ho]⟩
  | some a =>
    simp only [ho] at h
    obtain ⟨h1, h2, h3⟩ := memRead_ok h
    refine ⟨fun b hb => ?_, by simp [State.valueOf, ho, h2], by simp [State.readAddresses, ho, h3]⟩
    obtain rfl : a = b := by simpa [ho] using hb
    exact h1

/-- A read operand stops as the access at its address does (R80). -/
theorem readOp_error {o : ReadOperand} {s : State} {e : Stop} (h : readOp o s = .error e) :
    ∃ a, o.address? s.rb = some a ∧ access a s = .error e := by
  unfold readOp at h
  cases ho : o.address? s.rb with
  | none => simp [ho] at h
  | some a => exact ⟨a, rfl, memRead_error (by simpa [ho] using h)⟩

theorem readOp_of_access_error {o : ReadOperand} {s : State} {a : Int} {e : Stop} (ho : o.address? s.rb = some a)
    (h : access a s = .error e) : readOp o s = .error e := by
  simp [readOp, ho, memRead_of_access_error h]

theorem wAddr_of_writable {c : WriteTarget} {s : State} (h : s.writable c) :
    wAddr c s = .ok (c.address s.rb, s.setMem (s.mem.grownFor [s.writeAddress c])) := by
  simp [wAddr, access_of_addressable h, State.writeAddress]

theorem wAddr_ok {c : WriteTarget} {s t : State} {a : Int} (h : wAddr c s = .ok (a, t)) :
    s.writable c ∧ a = c.address s.rb ∧ t = s.setMem (s.mem.grownFor [s.writeAddress c]) := by
  unfold wAddr at h
  cases ha : access (c.address s.rb) s with
  | error e => simp [ha] at h
  | ok u =>
    obtain ⟨h1, rfl⟩ := access_ok ha
    simp only [ha, Except.ok.injEq, Prod.mk.injEq] at h
    exact ⟨h1, h.1.symm, h.2.symm⟩

theorem wAddr_error {c : WriteTarget} {s : State} {e : Stop} (h : wAddr c s = .error e) :
    access (c.address s.rb) s = .error e := by
  unfold wAddr at h
  cases ha : access (c.address s.rb) s with
  | ok u => simp [ha] at h
  | error e' => simpa [ha] using h

theorem wAddr_of_access_error {c : WriteTarget} {s : State} {e : Stop} (h : access (c.address s.rb) s = .error e) :
    wAddr c s = .error e := by
  simp [wAddr, h]

/-! Growth does not change what operands are. -/

@[simp] theorem valueOf_grownFor (s : State) (xs : List Nat) (o : ReadOperand) :
    (s.setMem (s.mem.grownFor xs)).valueOf o = s.valueOf o := rfl

@[simp] theorem readAddresses_setMem (s : State) (m : Memory) (o : ReadOperand) :
    (s.setMem m).readAddresses o = s.readAddresses o := rfl

@[simp] theorem writeAddress_setMem (s : State) (m : Memory) (c : WriteTarget) :
    (s.setMem m).writeAddress c = s.writeAddress c := rfl

theorem readAddresses_addressable {s : State} {o : ReadOperand} (h : s.readable o) :
    ∀ x ∈ s.readAddresses o, s.addressable (x : Int) := by
  intro x hx
  unfold State.readAddresses at hx
  cases ho : o.address? s.rb with
  | none => simp [ho] at hx
  | some a =>
    simp only [ho, List.mem_singleton] at hx
    subst hx
    have := h a ho
    rwa [Int.toNat_of_nonneg this.1]

theorem writeAddress_addressable {s : State} {c : WriteTarget} (h : s.writable c) :
    s.addressable (s.writeAddress c : Int) := by
  unfold State.writeAddress
  rwa [Int.toNat_of_nonneg h.1]

theorem readable_grownFor {s : State} {xs : List Nat} (h : ∀ x ∈ xs, s.addressable (x : Int)) (o : ReadOperand) :
    (s.setMem (s.mem.grownFor xs)).readable o ↔ s.readable o := by
  unfold State.readable
  exact forall₂_congr fun a _ => addressable_grownFor h a

theorem writable_grownFor {s : State} {xs : List Nat} (h : ∀ x ∈ xs, s.addressable (x : Int)) (c : WriteTarget) :
    (s.setMem (s.mem.grownFor xs)).writable c ↔ s.writable c :=
  addressable_grownFor h _

/-! The ALU. -/

/-- The exact result of an ALU operation that gives a word (R112). -/
def aluExact : AluOp → Int → Int → Int
  | .add, a, b => a + b
  | .mul, a, b => a * b
  | .lt, a, b => if a < b then 1 else 0
  | .eq, a, b => if a = b then 1 else 0

theorem inRange_bit {p : Params} (hp : p.wf) {v : Int} (h : v = 0 ∨ v = 1) : p.inRange v = true := by
  cases hb : p.wordBits with
  | none => simp [Params.inRange, hb]
  | some b =>
    have h64 := hp.1 b (by simp [hb])
    obtain ⟨k, rfl⟩ : ∃ k, b = k + 2 := ⟨b - 2, by omega⟩
    have : 0 < 2 ^ k := Nat.two_pow_pos k
    have e : (2 ^ (k + 1) : Nat) = 2 * 2 ^ k := by ring
    simp only [Params.inRange, hb, Bool.and_eq_true, decide_eq_true_eq, Nat.add_succ_sub_one, e]
    generalize 2 ^ k = m at *
    push_cast
    omega

/-- An ALU operation answers its exact result, which is a word, or overflows with it; only ADD and MUL can (R112). -/
theorem alu_ok {p : Params} {op : AluOp} {a b r : Int} (h : alu p op a b = .ok r) :
    r = aluExact op a b ∧ ((op = .add ∨ op = .mul) → p.inRange r = true) := by
  cases op <;> simp only [alu, inWordRange, condLess, condEqual, decide_eq_true_eq] at h
  case add =>
    split at h <;> simp_all [aluExact]
  case mul =>
    split at h <;> simp_all [aluExact]
  case lt => simp_all [aluExact]
  case eq => simp_all [aluExact]

theorem alu_ok_inRange {p : Params} (hp : p.wf) {op : AluOp} {a b r : Int} (h : alu p op a b = .ok r) :
    p.inRange r = true := by
  obtain ⟨h1, h2⟩ := alu_ok h
  cases op with
  | add => exact h2 (.inl rfl)
  | mul => exact h2 (.inr rfl)
  | lt =>
    refine inRange_bit hp ?_
    rw [h1]
    simp only [aluExact]
    split <;> simp
  | eq =>
    refine inRange_bit hp ?_
    rw [h1]
    simp only [aluExact]
    split <;> simp

theorem alu_error {p : Params} {op : AluOp} {a b : Int} {e : Stop} (h : alu p op a b = .error e) :
    (op = .add ∨ op = .mul) ∧ p.inRange (aluExact op a b) = false ∧ e = .trap (.overflow (aluExact op a b)) := by
  cases op <;> simp only [alu, inWordRange] at h
  case add =>
    split at h <;> simp_all [aluExact]
  case mul =>
    split at h <;> simp_all [aluExact]
  case lt => simp at h
  case eq => simp at h

theorem alu_of_fits {p : Params} {op : AluOp} {a b : Int}
    (h : (op = .add ∨ op = .mul) → p.inRange (aluExact op a b) = true) : alu p op a b = .ok (aluExact op a b) := by
  cases op with
  | add => simpa [alu, inWordRange, aluExact] using h (.inl rfl)
  | mul => simpa [alu, inWordRange, aluExact] using h (.inr rfl)
  | lt => simp [alu, aluExact, condLess]
  | eq => simp [alu, aluExact, condEqual]

theorem alu_of_overflow {p : Params} {op : AluOp} {a b : Int} (hop : op = .add ∨ op = .mul)
    (h : p.inRange (aluExact op a b) = false) : alu p op a b = .error (.trap (.overflow (aluExact op a b))) := by
  rcases hop with rfl | rfl <;> simp_all [alu, inWordRange, aluExact]

/-! Chains of a step's work. -/

/-- A chain that answers has a first link that answers. -/
theorem bind_ok {α β : Type} {x : Except Stop α} {f : α → Except Stop β} {r : β} (h : (x >>= f) = .ok r) :
    ∃ a, x = .ok a ∧ f a = .ok r := by
  cases x with
  | error e => cases h
  | ok a => exact ⟨a, rfl, h⟩

/-- A chain that stops does so in its first link or after it. -/
theorem bind_error {α β : Type} {x : Except Stop α} {f : α → Except Stop β} {e : Stop} (h : (x >>= f) = .error e) :
    x = .error e ∨ ∃ a, x = .ok a ∧ f a = .error e := by
  cases x with
  | error e' => cases h; exact .inl rfl
  | ok a => exact .inr ⟨a, rfl, h⟩

theorem ok_bind {α β : Type} (a : α) (f : α → Except Stop β) : ((.ok a : Except Stop α) >>= f) = f a := rfl

theorem error_bind {α β : Type} (e : Stop) (f : α → Except Stop β) :
    ((.error e : Except Stop α) >>= f) = .error e := rfl

/-! The shapes of the instructions. -/

/-- The addresses ADD, MUL, LESS-THAN and EQUALS access in phase O, in order (R103). -/
def threeOperandAddresses (a b : ReadOperand) (c : WriteTarget) (s : State) : List Nat :=
  s.readAddresses a ++ s.readAddresses b ++ [s.writeAddress c]

/-- What the three-operand shape does when its operands can be had and its result is a word (R120, R121, R150,
R151). -/
theorem threeOperand_of {op : AluOp} {a b : ReadOperand} {c : WriteTarget} {s : State} (ha : s.readable a)
    (hb : s.readable b) (hc : s.writable c)
    (hr : (op = .add ∨ op = .mul) → s.cfg.inRange (aluExact op (s.valueOf a) (s.valueOf b)) = true) :
    threeOperand op a b c s = .ok ((s.setMem ((s.mem.grownFor (threeOperandAddresses a b c s)).store
      (s.writeAddress c) (aluExact op (s.valueOf a) (s.valueOf b)))).setPc (s.pc + 4)) := by
  have h1 := readAddresses_addressable ha
  have h2 := readAddresses_addressable hb
  have hb' := (readable_grownFor h1 b).mpr hb
  have h12 : ∀ x ∈ s.readAddresses a ++ s.readAddresses b, s.addressable (x : Int) := by
    intro x hx
    rcases List.mem_append.mp hx with h | h
    · exact h1 x h
    · exact h2 x h
  have hc' := (writable_grownFor h12 c).mpr hc
  have hlt : s.writeAddress c < lengthAfter s.mem.len (threeOperandAddresses a b c s) := by
    rw [threeOperandAddresses, lengthAfter_append]
    exact lt_lengthAfter_self _ _
  simp only [threeOperand, readOp_of_readable ha, ok_bind, readOp_of_readable hb', State.setMem_mem,
    Memory.grownFor_grownFor, State.setMem_setMem, readAddresses_setMem, wAddr_of_writable hc', writeAddress_setMem,
    State.setMem_cfg, State.setMem_rb, valueOf_grownFor, alu_of_fits hr]
  rw [memWrite_of_lt hc.1 (by simpa [State.writeAddress, threeOperandAddresses] using hlt)]
  rfl

/-- What the three-operand shape did, when it answers. -/
theorem threeOperand_ok {op : AluOp} {a b : ReadOperand} {c : WriteTarget} {s t : State}
    (h : threeOperand op a b c s = .ok t) :
    s.readable a ∧ s.readable b ∧ s.writable c ∧
      alu s.cfg op (s.valueOf a) (s.valueOf b) = .ok (aluExact op (s.valueOf a) (s.valueOf b)) ∧
      t = (s.setMem ((s.mem.grownFor (threeOperandAddresses a b c s)).store
        (s.writeAddress c) (aluExact op (s.valueOf a) (s.valueOf b)))).setPc (s.pc + 4) := by
  have h' := h
  unfold threeOperand at h
  obtain ⟨⟨x, s1⟩, e1, h⟩ := bind_ok h
  obtain ⟨⟨y, s2⟩, e2, h⟩ := bind_ok h
  obtain ⟨⟨d, s3⟩, e3, h⟩ := bind_ok h
  obtain ⟨r, e4, h⟩ := bind_ok h
  obtain ⟨ha, rfl, rfl⟩ := readOp_ok e1
  have h1 := readAddresses_addressable ha
  obtain ⟨hb, rfl, rfl⟩ := readOp_ok e2
  rw [readable_grownFor h1] at hb
  obtain ⟨hc, rfl, rfl⟩ := wAddr_ok e3
  simp only [State.setMem_mem, readAddresses_setMem, Memory.grownFor_grownFor, State.setMem_setMem] at hc
  have h12 : ∀ x ∈ s.readAddresses a ++ s.readAddresses b, s.addressable (x : Int) := by
    intro x hx
    rcases List.mem_append.mp hx with h | h
    · exact h1 x h
    · exact readAddresses_addressable hb x h
  rw [writable_grownFor h12] at hc
  simp only [State.setMem_cfg, valueOf_grownFor] at e4
  obtain ⟨rfl, hr⟩ := alu_ok e4
  rw [threeOperand_of ha hb hc hr] at h'
  exact ⟨ha, hb, hc, e4, by simpa using h'.symm⟩

/-- What a taken jump did, when it answers: the target is not negative (R142). -/
theorem jumpTo_ok {b : ReadOperand} {s t : State} (h : jumpTo b s = .ok t) :
    s.readable b ∧ 0 ≤ s.valueOf b ∧
      t = (s.setMem (s.mem.grownFor (s.readAddresses b))).setPc (s.valueOf b).toNat := by
  unfold jumpTo at h
  obtain ⟨⟨v, s1⟩, e1, h⟩ := bind_ok h
  obtain ⟨hb, rfl, rfl⟩ := readOp_ok e1
  by_cases hv : s.valueOf b < 0
  · simp [hv] at h
  · simp only [hv, if_false] at h
    exact ⟨hb, Int.not_lt.mp hv, by simpa [pure, Except.pure] using h.symm⟩

theorem jumpTo_of {b : ReadOperand} {s : State} (hb : s.readable b) (hv : 0 ≤ s.valueOf b) :
    jumpTo b s = .ok ((s.setMem (s.mem.grownFor (s.readAddresses b))).setPc (s.valueOf b).toNat) := by
  simp [jumpTo, readOp_of_readable hb, ok_bind, Int.not_lt.mpr hv, pure, Except.pure]

/-- What a jump did, when it answers: taken, or three words on (R140, R141). -/
theorem jumpWhen_ok {test : Int → Bool} {a b : ReadOperand} {s t : State} (h : jumpWhen test a b s = .ok t) :
    s.readable a ∧
      ((test (s.valueOf a) = true ∧ s.readable b ∧ 0 ≤ s.valueOf b ∧
          t = (s.setMem (s.mem.grownFor (s.readAddresses a ++ s.readAddresses b))).setPc (s.valueOf b).toNat) ∨
        (test (s.valueOf a) = false ∧
          t = (s.setMem (s.mem.grownFor (s.readAddresses a))).setPc (s.pc + 3))) := by
  unfold jumpWhen at h
  obtain ⟨⟨v, s1⟩, e1, h⟩ := bind_ok h
  obtain ⟨ha, rfl, rfl⟩ := readOp_ok e1
  refine ⟨ha, ?_⟩
  cases ht : test (s.valueOf a) with
  | true =>
    simp only [ht, if_true] at h
    obtain ⟨hb, hv, rfl⟩ := jumpTo_ok h
    rw [readable_grownFor (readAddresses_addressable ha)] at hb
    exact .inl ⟨rfl, hb, by simpa using hv, by simp [Memory.grownFor_grownFor]⟩
  | false =>
    simp only [ht, Bool.false_eq_true, if_false] at h
    exact .inr ⟨rfl, by simpa [pure, Except.pure] using h.symm⟩

theorem jumpWhen_taken {test : Int → Bool} {a b : ReadOperand} {s : State} (ha : s.readable a)
    (ht : test (s.valueOf a) = true) (hb : s.readable b) (hv : 0 ≤ s.valueOf b) :
    jumpWhen test a b s =
      .ok ((s.setMem (s.mem.grownFor (s.readAddresses a ++ s.readAddresses b))).setPc (s.valueOf b).toNat) := by
  have hb' := (readable_grownFor (readAddresses_addressable ha) b).mpr hb
  simp [jumpWhen, readOp_of_readable ha, ok_bind, ht, jumpTo_of hb' (by simpa using hv), Memory.grownFor_grownFor]

theorem jumpWhen_not_taken {test : Int → Bool} {a b : ReadOperand} {s : State} (ha : s.readable a)
    (ht : test (s.valueOf a) = false) :
    jumpWhen test a b s = .ok ((s.setMem (s.mem.grownFor (s.readAddresses a))).setPc (s.pc + 3)) := by
  simp [jumpWhen, readOp_of_readable ha, ok_bind, ht, pure, Except.pure]

end Sys2Proof.Machine
end

