-- ==== Sys2Proof/Laws/Instr.lean ====
section
/-! SUPPORT. Each instruction's work, in both directions: what it does when it completes, and the cases of a next
state. -/

namespace Sys2Proof.Machine

/-! INPUT. -/

/-- Taking the input does not look at memory. -/
theorem takeInput_setMem (s : State) (m : Memory) :
    takeInput (s.setMem m) = (takeInput s).map (fun r => (r.1, r.2.setMem m)) := by
  have hn : (s.setMem m).nextAnswer = s.nextAnswer := rfl
  cases hq : s.iq with
  | cons v rest => simp [takeInput, hq, Except.map, State.setIq, State.setMem]
  | nil =>
    cases hp : s.cfg.policy with
    | fault => simp [takeInput, hq, hp, Except.map]
    | provider =>
      by_cases hr : s.cfg.inRange s.nextAnswer = true
      · simp only [takeInput, State.setMem_iq, hq, State.setMem_cfg, hp, provide, hn, hr, if_true, Except.map]
        rfl
      · simp [takeInput, hq, hp, provide, hn, hr, Except.map]

/-- INPUT with a value to take: it goes to the target, and the queue or the provider moves on (R130, R61). -/
theorem inputTo_of {a : WriteTarget} {s u : State} {v : Int} (ha : s.writable a) (h : takeInput s = .ok (v, u)) :
    inputTo a s = .ok ((u.setMem ((s.mem.grownFor [s.writeAddress a]).store (s.writeAddress a) v)).setPc
      (s.pc + 2)) := by
  have hlt : (a.address s.rb).toNat < lengthAfter s.mem.len [s.writeAddress a] := lt_lengthAfter_self _ _
  simp only [inputTo, wAddr_of_writable ha, ok_bind, takeInput_setMem, h, Except.map]
  rw [memWrite_of_lt ha.1 (by simpa using hlt)]
  rfl

theorem inputTo_of_queued {a : WriteTarget} {s : State} {v : Int} {rest : List Int} (ha : s.writable a)
    (hq : s.iq = v :: rest) :
    inputTo a s = .ok (((s.setIq rest).setMem ((s.mem.grownFor [s.writeAddress a]).store (s.writeAddress a) v)).setPc
      (s.pc + 2)) :=
  inputTo_of ha (by simp [takeInput, hq])

theorem inputTo_of_provider {a : WriteTarget} {s : State} (ha : s.writable a) (hq : s.iq = [])
    (hp : s.cfg.policy = .provider) (hr : s.cfg.inRange s.nextAnswer = true) :
    inputTo a s = .ok (((s.setProvider s.answers.tail (s.provides + 1)).setMem
      ((s.mem.grownFor [s.writeAddress a]).store (s.writeAddress a) s.nextAnswer)).setPc (s.pc + 2)) :=
  inputTo_of ha (by simp [takeInput, hq, hp, provide, hr])

/-- INPUT with nothing to take (R130, R61). -/
theorem inputTo_of_stop {a : WriteTarget} {s : State} {e : Stop} (ha : s.writable a) (h : takeInput s = .error e) :
    inputTo a s = .error e := by
  simp [inputTo, wAddr_of_writable ha, ok_bind, takeInput_setMem, h, Except.map, error_bind]

/-- What INPUT did, when it completes. -/
theorem inputTo_ok {a : WriteTarget} {s t : State} (h : inputTo a s = .ok t) :
    s.writable a ∧ ∃ v u, takeInput s = .ok (v, u) ∧
      t = (u.setMem ((s.mem.grownFor [s.writeAddress a]).store (s.writeAddress a) v)).setPc (s.pc + 2) := by
  obtain ⟨⟨d, s1⟩, e1, -⟩ := bind_ok h
  have ha := (wAddr_ok e1).1
  cases hx : takeInput s with
  | error e =>
    rw [inputTo_of_stop ha hx] at h
    cases h
  | ok r =>
    rw [inputTo_of ha hx] at h
    exact ⟨ha, r.1, r.2, rfl, by simpa using h.symm⟩

/-! OUTPUT and ADJUST-RELATIVE-BASE. -/

theorem outputOf_of {a : ReadOperand} {s : State} (ha : s.readable a) :
    outputOf a s = .ok (((s.setMem (s.mem.grownFor (s.readAddresses a))).setOq (s.oq ++ [s.valueOf a])).setPc
      (s.pc + 2)) := by
  simp [outputOf, readOp_of_readable ha, ok_bind, pure, Except.pure]

theorem outputOf_ok {a : ReadOperand} {s t : State} (h : outputOf a s = .ok t) :
    s.readable a ∧
      t = ((s.setMem (s.mem.grownFor (s.readAddresses a))).setOq (s.oq ++ [s.valueOf a])).setPc (s.pc + 2) := by
  have h' := h
  obtain ⟨⟨v, s1⟩, e1, -⟩ := bind_ok h
  have ha := (readOp_ok e1).1
  rw [outputOf_of ha] at h'
  exact ⟨ha, by simpa using h'.symm⟩

theorem adjustBase_of {a : ReadOperand} {s : State} (ha : s.readable a)
    (hr : s.cfg.inRange (s.rb + s.valueOf a) = true) :
    adjustBase a s = .ok (((s.setMem (s.mem.grownFor (s.readAddresses a))).setRb (s.rb + s.valueOf a)).setPc
      (s.pc + 2)) := by
  simp [adjustBase, readOp_of_readable ha, ok_bind, alu, inWordRange, hr, pure, Except.pure]

theorem adjustBase_ok {a : ReadOperand} {s t : State} (h : adjustBase a s = .ok t) :
    s.readable a ∧ s.cfg.inRange (s.rb + s.valueOf a) = true ∧
      t = ((s.setMem (s.mem.grownFor (s.readAddresses a))).setRb (s.rb + s.valueOf a)).setPc (s.pc + 2) := by
  have h' := h
  obtain ⟨⟨v, s1⟩, e1, h⟩ := bind_ok h
  obtain ⟨ha, rfl, rfl⟩ := readOp_ok e1
  obtain ⟨r, e2, -⟩ := bind_ok h
  have hr := (alu_ok e2).2 (.inl rfl)
  rw [(alu_ok e2).1] at hr
  simp only [aluExact, State.setMem_rb, State.setMem_cfg] at hr
  rw [adjustBase_of ha hr] at h'
  exact ⟨ha, hr, by simpa using h'.symm⟩

/-! All instructions. -/

/-- The work of an instruction that is not HALT, as a chain over the tentative state (R13). -/
def workOf (s : State) : Instr → Except Stop State
  | .add a b c => threeOperand .add a b c s
  | .mul a b c => threeOperand .mul a b c s
  | .input a => inputTo a s
  | .output a => outputOf a s
  | .jumpIfTrue a b => jumpWhen condNonZero a b s
  | .jumpIfFalse a b => jumpWhen condZero a b s
  | .lessThan a b c => threeOperand .lt a b c s
  | .equals a b c => threeOperand .eq a b c s
  | .adjustRelativeBase a => adjustBase a s
  | .halt => .ok s

/-- Every instruction but HALT concludes its work; HALT moves to Halted (R100, R170). -/
theorem exec_eq (i : Instr) (s : State) :
    exec i s = if i = .halt then .next ((s.setRunState .halted).respond .halt) else s.conclude (workOf s i) := by
  cases i <;> rfl

/-- The ends of an instruction that answers a next state (R101, R106). -/
theorem exec_next {i : Instr} {s t : State} (h : exec i s = .next t) :
    (i = .halt ∧ t = (s.setRunState .halted).respond .halt) ∨
      (i ≠ .halt ∧ ∃ u, workOf s i = .ok u ∧ t = u.respond .cont) ∨
      (∃ f, t = s.raise f ∧ workOf s i = .error (.trap f)) ∨
      (t = s.respond .emptyQueue ∧ workOf s i = .error .emptyQueue) := by
  rw [exec_eq] at h
  by_cases hi : i = .halt
  · simp only [hi, if_true, Host.Outcome.next.injEq] at h
    exact .inl ⟨hi, h.symm⟩
  · simp only [hi, if_false] at h
    rcases State.conclude_next h with ⟨u, h1, h2⟩ | ⟨f, h1, h2⟩ | ⟨h1, h2⟩
    · exact .inr (.inl ⟨hi, u, h1, h2⟩)
    · exact .inr (.inr (.inl ⟨f, h2, h1⟩))
    · exact .inr (.inr (.inr ⟨h2, h1⟩))

end Sys2Proof.Machine
end

