-- ==== Sys2Proof/Laws/PerInstr.lean ====
section
/-! SUPPORT. One statement about every instruction as syntax, proved constructor by constructor: the canonical word
carries the opcode in its low two digits, is never negative and at most 22299, and the instruction is 1 to 4 words long
(spec/30_encoding.md R74, R87). -/

namespace Sys2Proof.Laws.WordShape

def Statement (i : Instr) : Prop :=
  0 ≤ i.headWord ∧ i.headWord ≤ 22299 ∧ i.headWord % 100 = i.opcode ∧ 1 ≤ i.length ∧ i.length ≤ 4

theorem head_bounds (op d1 d2 d3 : Nat) (h0 : op < 100) (h1 : d1 < 3) (h2 : d2 < 3) (h3 : d3 < 3) :
    0 ≤ ((op + 100 * d1 + 1000 * d2 + 10000 * d3 : Nat) : Int) ∧
      ((op + 100 * d1 + 1000 * d2 + 10000 * d3 : Nat) : Int) ≤ 22299 ∧
      ((op + 100 * d1 + 1000 * d2 + 10000 * d3 : Nat) : Int) % 100 = op := by
  omega

theorem of_fields {i : Instr} (h0 : i.opcode < 100) (h1 : i.modeDigits.1 < 3) (h2 : i.modeDigits.2.1 < 3)
    (h3 : i.modeDigits.2.2 < 3) (hl : i.params.length ≤ 3) : Statement i := by
  obtain ⟨h4, h5, h6⟩ := head_bounds i.opcode i.modeDigits.1 i.modeDigits.2.1 i.modeDigits.2.2 h0 h1 h2 h3
  exact ⟨h4, h5, h6, by simp [Instr.length], by simp only [Instr.length]; omega⟩

theorem add (a b : ReadOperand) (c : WriteTarget) : Statement (.add a b c) :=
  of_fields (by simp [Instr.opcode]) a.mode.digit_lt b.mode.digit_lt c.mode.digit_lt (by simp [Instr.params])

theorem mul (a b : ReadOperand) (c : WriteTarget) : Statement (.mul a b c) :=
  of_fields (by simp [Instr.opcode]) a.mode.digit_lt b.mode.digit_lt c.mode.digit_lt (by simp [Instr.params])

theorem input (a : WriteTarget) : Statement (.input a) :=
  of_fields (by simp [Instr.opcode]) a.mode.digit_lt (by simp [Instr.modeDigits])
    (by simp [Instr.modeDigits]) (by simp [Instr.params])

theorem output (a : ReadOperand) : Statement (.output a) :=
  of_fields (by simp [Instr.opcode]) a.mode.digit_lt (by simp [Instr.modeDigits])
    (by simp [Instr.modeDigits]) (by simp [Instr.params])

theorem jumpIfTrue (a b : ReadOperand) : Statement (.jumpIfTrue a b) :=
  of_fields (by simp [Instr.opcode]) a.mode.digit_lt b.mode.digit_lt
    (by simp [Instr.modeDigits]) (by simp [Instr.params])

theorem jumpIfFalse (a b : ReadOperand) : Statement (.jumpIfFalse a b) :=
  of_fields (by simp [Instr.opcode]) a.mode.digit_lt b.mode.digit_lt
    (by simp [Instr.modeDigits]) (by simp [Instr.params])

theorem lessThan (a b : ReadOperand) (c : WriteTarget) : Statement (.lessThan a b c) :=
  of_fields (by simp [Instr.opcode]) a.mode.digit_lt b.mode.digit_lt c.mode.digit_lt (by simp [Instr.params])

theorem equals (a b : ReadOperand) (c : WriteTarget) : Statement (.equals a b c) :=
  of_fields (by simp [Instr.opcode]) a.mode.digit_lt b.mode.digit_lt c.mode.digit_lt (by simp [Instr.params])

theorem adjustRelativeBase (a : ReadOperand) : Statement (.adjustRelativeBase a) :=
  of_fields (by simp [Instr.opcode]) a.mode.digit_lt (by simp [Instr.modeDigits])
    (by simp [Instr.modeDigits]) (by simp [Instr.params])

theorem halt : Statement .halt :=
  of_fields (by simp [Instr.opcode]) (by simp [Instr.modeDigits]) (by simp [Instr.modeDigits])
    (by simp [Instr.modeDigits]) (by simp [Instr.params])

end Sys2Proof.Laws.WordShape
end

