-- ==== Sys2Proof/Laws/Step.lean ====
section
/-! SUPPORT. What a fetch and a step can do, said once (spec/40_execution_cycle.md R100 to R108). -/

namespace Sys2Proof.Machine

/-- The addresses of `n` words from `a` up, one at a time. -/
theorem wordsFrom_succ (a n : Nat) : wordsFrom a (n + 1) = a :: wordsFrom (a + 1) n := by
  simp only [wordsFrom, List.range_succ_eq_map, List.map_cons, List.map_map, Nat.add_zero, List.cons.injEq, true_and]
  refine List.map_congr_left fun x _ => ?_
  simp only [Function.comp_apply]
  omega

/-- The parameter fetch, when it answers: the words at the addresses, with memory grown for them (R75). -/
theorem fetchWords_ok {n a : Nat} {s t : State} {vs : List Int} (h : fetchWords n a s = .ok (vs, t)) :
    (∀ x ∈ wordsFrom a n, s.addressable (x : Int)) ∧ vs = (wordsFrom a n).map s.mem.read ∧
      t = s.setMem (s.mem.grownFor (wordsFrom a n)) := by
  induction n generalizing a s t vs with
  | zero =>
    simp only [fetchWords, Except.ok.injEq, Prod.mk.injEq] at h
    obtain ⟨rfl, rfl⟩ := h
    simp [wordsFrom]
  | succ n ih =>
    unfold fetchWords at h
    obtain ⟨⟨v, s1⟩, e1, h⟩ := bind_ok h
    obtain ⟨⟨ws, s2⟩, e2, h⟩ := bind_ok h
    obtain ⟨ha, rfl, rfl⟩ := memRead_ok e1
    obtain ⟨hw, rfl, rfl⟩ := ih e2
    simp only [pure, Except.pure, Except.ok.injEq, Prod.mk.injEq, Int.toNat_natCast] at h
    obtain ⟨rfl, rfl⟩ := h
    have h1 : ∀ x ∈ [a], s.addressable (x : Int) := by simpa using ha
    rw [wordsFrom_succ]
    refine ⟨?_, rfl, ?_⟩
    · intro x hx
      rcases List.mem_cons.mp hx with rfl | hx
      · exact ha
      · exact (addressable_grownFor h1 _).mp (hw x hx)
    · simp only [State.setMem_mem, State.setMem_setMem, Memory.grownFor_grownFor]
      rfl

theorem fetchWords_of {n a : Nat} {s : State} (h : ∀ x ∈ wordsFrom a n, s.addressable (x : Int)) :
    fetchWords n a s = .ok ((wordsFrom a n).map s.mem.read, s.setMem (s.mem.grownFor (wordsFrom a n))) := by
  induction n generalizing a s with
  | zero => simp [fetchWords, wordsFrom]
  | succ n ih =>
    rw [wordsFrom_succ] at h ⊢
    have ha := h a (List.mem_cons_self ..)
    have h1 : ∀ x ∈ [a], s.addressable (x : Int) := by simpa using ha
    have hw : ∀ x ∈ wordsFrom (a + 1) n, (s.setMem (s.mem.grownFor [a])).addressable (x : Int) := fun x hx =>
      (addressable_grownFor h1 _).mpr (h x (List.mem_cons_of_mem _ hx))
    simp only [fetchWords, memRead_of_addressable ha, ok_bind, Int.toNat_natCast, ih hw, State.setMem_mem,
      State.setMem_setMem, Memory.grownFor_grownFor, pure, Except.pure]
    rfl

/-- A fetch that answers: the word at `pc` decodes, and the instruction is the decoded word with the parameter words
after it (R100, R102). -/
theorem fetch_ok {s t : State} {i : Instr} (h : fetch s = .ok (i, t)) :
    ∃ hd, decodeWord (s.mem.read s.pc) = .ok hd ∧
      (∀ x ∈ wordsFrom s.pc (hd.paramCount + 1), s.addressable (x : Int)) ∧
      i = hd.assemble ((wordsFrom (s.pc + 1) hd.paramCount).map s.mem.read) ∧
      t = s.setMem (s.mem.grownFor (wordsFrom s.pc (hd.paramCount + 1))) := by
  unfold fetch at h
  obtain ⟨⟨w, s1⟩, e1, h⟩ := bind_ok h
  obtain ⟨hd, e2, h⟩ := bind_ok h
  obtain ⟨⟨ps, s2⟩, e3, h⟩ := bind_ok h
  obtain ⟨ha, rfl, rfl⟩ := memRead_ok e1
  obtain ⟨hw, rfl, rfl⟩ := fetchWords_ok e3
  simp only [pure, Except.pure, Except.ok.injEq, Prod.mk.injEq, Int.toNat_natCast] at h
  obtain ⟨rfl, rfl⟩ := h
  have h1 : ∀ x ∈ [s.pc], s.addressable (x : Int) := by simpa using ha
  refine ⟨hd, ?_, ?_, rfl, ?_⟩
  · unfold decodeFetched at e2
    cases hdw : decodeWord (s.mem.read s.pc) with
    | error r => simp [hdw] at e2
    | ok hd' => simpa [hdw] using e2
  · rw [wordsFrom_succ]
    intro x hx
    rcases List.mem_cons.mp hx with rfl | hx
    · exact ha
    · exact (addressable_grownFor h1 _).mp (hw x hx)
  · rw [wordsFrom_succ]
    simp only [State.setMem_mem, State.setMem_setMem, Memory.grownFor_grownFor]
    rfl

theorem fetch_of {s : State} {hd : Header} (hdw : decodeWord (s.mem.read s.pc) = .ok hd)
    (h : ∀ x ∈ wordsFrom s.pc (hd.paramCount + 1), s.addressable (x : Int)) :
    fetch s = .ok (hd.assemble ((wordsFrom (s.pc + 1) hd.paramCount).map s.mem.read),
      s.setMem (s.mem.grownFor (wordsFrom s.pc (hd.paramCount + 1)))) := by
  rw [wordsFrom_succ] at h ⊢
  have ha := h s.pc (List.mem_cons_self ..)
  have h1 : ∀ x ∈ [s.pc], s.addressable (x : Int) := by simpa using ha
  have hw : ∀ x ∈ wordsFrom (s.pc + 1) hd.paramCount, (s.setMem (s.mem.grownFor [s.pc])).addressable (x : Int) :=
    fun x hx => (addressable_grownFor h1 _).mpr (h x (List.mem_cons_of_mem _ hx))
  simp only [fetch, memRead_of_addressable ha, ok_bind, Int.toNat_natCast, decodeFetched, hdw, fetchWords_of hw,
    State.setMem_mem, State.setMem_setMem, Memory.grownFor_grownFor, pure, Except.pure]
  rfl

/-- A fetch stops only by a fault (R103). -/
theorem fetchWords_error {n a : Nat} {s : State} {e : Stop} (h : fetchWords n a s = .error e) : ∃ f, e = .trap f := by
  induction n generalizing a s with
  | zero => simp [fetchWords] at h
  | succ n ih =>
    rcases bind_error h with h | ⟨⟨v, s1⟩, -, h⟩
    · rcases access_error (memRead_error h) with ⟨-, rfl⟩ | ⟨-, -, -, rfl⟩ <;> exact ⟨_, rfl⟩
    · rcases bind_error h with h | ⟨⟨vs, s2⟩, -, h⟩
      · exact ih h
      · cases h

theorem fetch_error {s : State} {e : Stop} (h : fetch s = .error e) : ∃ f, e = .trap f := by
  rcases bind_error h with h | ⟨⟨w, s1⟩, -, h⟩
  · rcases access_error (memRead_error h) with ⟨-, rfl⟩ | ⟨-, -, -, rfl⟩ <;> exact ⟨_, rfl⟩
  · rcases bind_error h with h | ⟨hd, -, h⟩
    · unfold decodeFetched at h
      split at h
      · cases h
        exact ⟨_, rfl⟩
      · cases h
    · rcases bind_error h with h | ⟨⟨ps, s2⟩, -, h⟩
      · exact fetchWords_error h
      · cases h

/-- EVERY WAY A STEP CAN ANSWER A NEXT STATE: the two responses of a stopped machine, a fault (of the fetch or of the
instruction) and the response EMPTY_QUEUE, which leave everything else as it was, and a completed instruction (R100,
R101, R106 to R108). -/
theorem step_next {s t : State} (h : step s = .next t) :
    (s.runState = .faulted ∧ t = s.respond (.fault s.faultCause)) ∨
      (s.runState = .halted ∧ t = s.respond .stepAfterHalt) ∨
      (s.runState = .runnable ∧
        ((∃ f, t = s.raise f) ∨ t = s.respond .emptyQueue ∨
          ∃ i s1, fetch s = .ok (i, s1) ∧
            ((i = .halt ∧ t = (s1.setRunState .halted).respond .halt) ∨
              (i ≠ .halt ∧ ∃ u, workOf s1 i = .ok u ∧ t = u.respond .cont)))) := by
  unfold step at h
  cases hr : s.runState with
  | faulted =>
    simp only [hr, Host.Outcome.next.injEq] at h
    exact .inl ⟨rfl, h.symm⟩
  | halted =>
    simp only [hr, Host.Outcome.next.injEq] at h
    exact .inr (.inl ⟨rfl, h.symm⟩)
  | runnable =>
    refine .inr (.inr ⟨rfl, ?_⟩)
    simp only [hr] at h
    cases hf : fetch s with
    | error e =>
      obtain ⟨f, rfl⟩ := fetch_error hf
      simp only [hf, State.stop, Host.Outcome.next.injEq] at h
      exact .inl ⟨f, h.symm⟩
    | ok r =>
      obtain ⟨i, s1⟩ := r
      obtain ⟨hd, -, -, -, e1⟩ := fetch_ok hf
      simp only [hf] at h
      cases hx : exec i s1 with
      | fault f => cases f
      | refused r => simp [hx, State.atomically] at h
      | next u =>
        simp only [hx, State.atomically, Host.Outcome.next.injEq] at h
        rcases exec_next hx with ⟨rfl, rfl⟩ | ⟨hi, v, hv, rfl⟩ | ⟨f, rfl, -⟩ | ⟨rfl, -⟩
        · exact .inr (.inr ⟨_, _, rfl, .inl ⟨rfl, by simpa using h.symm⟩⟩)
        · exact .inr (.inr ⟨_, _, rfl, .inr ⟨hi, v, hv, by simpa using h.symm⟩⟩)
        · refine .inl ⟨f, ?_⟩
          simp only [State.raise_response, reduceCtorEq, or_self, if_false, e1] at h
          exact h ▸ rfl
        · refine .inr (.inl ?_)
          simp only [State.respond_response, reduceCtorEq, or_self, if_false, e1] at h
          exact h ▸ rfl

end Sys2Proof.Machine
end

