-- ==== Sys2Proof/Machine/Listing.lean ====
section
/-! DEFINITION. The spec's notation for listings (spec/30_encoding.md R81, R86): notation only, no step depends on it. -/

namespace Sys2Proof.Machine

/-- `[n]`, `#n` or `[rb+n]` / `[rb-n]` (R86). -/
def relativeText (v : Int) : List Char :=
  if v < 0 then ['[', 'r', 'b'] ++ integerText v ++ [']'] else ['[', 'r', 'b', '+'] ++ integerText v ++ [']']

/-- A read operand in a listing (R86). -/
def readText (o : ReadOperand) : List Char :=
  match o.mode with
  | .position => ['['] ++ integerText o.raw ++ [']']
  | .immediate => '#' :: integerText o.raw
  | .relative => relativeText o.raw

/-- A write target in a listing (R86). -/
def writeText (t : WriteTarget) : List Char :=
  match t.mode with
  | .position => ['['] ++ integerText t.raw ++ [']']
  | .relative => relativeText t.raw

/-- The short mnemonic (R81). -/
def shortName : Instr → List Char
  | .add _ _ _ => ['A', 'D', 'D']
  | .mul _ _ _ => ['M', 'U', 'L']
  | .input _ => ['I', 'N']
  | .output _ => ['O', 'U', 'T']
  | .jumpIfTrue _ _ => ['J', 'T']
  | .jumpIfFalse _ _ => ['J', 'F']
  | .lessThan _ _ _ => ['L', 'T']
  | .equals _ _ _ => ['E', 'Q']
  | .adjustRelativeBase _ => ['A', 'R', 'B']
  | .halt => ['H', 'A', 'L', 'T']

/-- The operands of an instruction in a listing. -/
def operandTexts : Instr → List (List Char)
  | .add a b c => [readText a, readText b, writeText c]
  | .mul a b c => [readText a, readText b, writeText c]
  | .input a => [writeText a]
  | .output a => [readText a]
  | .jumpIfTrue a b => [readText a, readText b]
  | .jumpIfFalse a b => [readText a, readText b]
  | .lessThan a b c => [readText a, readText b, writeText c]
  | .equals a b c => [readText a, readText b, writeText c]
  | .adjustRelativeBase a => [readText a]
  | .halt => []

/-- Operands joined with a comma and a space. -/
def joinOperands : List (List Char) → List Char
  | [] => []
  | [t] => t
  | t :: u :: rest => t ++ [',', ' '] ++ joinOperands (u :: rest)

/-- One line of a listing, `MNEMONIC op1, op2, op3` (R86). -/
def listing (i : Instr) : List Char :=
  match operandTexts i with
  | [] => shortName i
  | t :: ts => shortName i ++ [' '] ++ joinOperands (t :: ts)

/-- The line of a word that is not executed, `DATA n` (R86). -/
def dataListing (v : Int) : List Char := ['D', 'A', 'T', 'A', ' '] ++ integerText v

end Sys2Proof.Machine
end

