-- ==== Sys2Proof/Tests/Slice0.lean ====
section
/-! SUPPORT. Tests of one step on small states, with results taken from spec/95_test_vectors.md (its vector named in
each docstring) or worked out by hand from the rules, and a witness for every statement of
Sys2Proof/Certificates/Slice0/Obligations.lean that has hypotheses. -/

namespace Sys2Proof.Tests
open Sys2Proof Sys2Proof.Machine

/-! Helpers. -/

/-- The machine after RESET with an image and an input, under given parameters. -/
def startWith (p : Params) (image input : List Int) : State := ({ State.reset with cfg := p }).load image input

/-- The machine after RESET, under the default parameters. -/
def start (image input : List Int) : State := startWith Params.default image input

/-- The default parameters with unbounded words. -/
def unbounded : Params := { Params.default with wordBits := none }

/-- The default parameters under the policy PROVIDER. -/
def provided : Params := { Params.default with policy := .provider }

/-- WMAX and WMIN for 64-bit words. -/
def wmax : Int := 9223372036854775807
def wmin : Int := -9223372036854775808

/-- What a function gives on the next state, if there is one. -/
def onNext {α : Type} (f : State → α) : Host.Outcome State Fault Refusal → Option α
  | .next t => some (f t)
  | .fault _ => none
  | .refused _ => none

/-- Response, program counter and memory length after one step. -/
def outline (s : State) : Option (StepResponse × Nat × Nat) :=
  onNext (fun t => (t.response, t.pc, t.mem.len)) (step s)

/-- What a fault left behind: response, cause, faulting pc, detail, and the program counter and length kept. -/
def faultOf (s : State) : Option (StepResponse × Cause × Nat × FaultInfo × Nat × Nat) :=
  onNext (fun t => (t.response, t.faultCause, t.faultPc, t.faultInfo, t.pc, t.mem.len)) (step s)

/-- One word of memory after one step. -/
def wordAfter (s : State) (a : Nat) : Option Int := onNext (fun t => t.mem.read a) (step s)

/-- The instruction decoded from words, if there is one. -/
def decoded (ws : List Int) : Option Instr := (decode ws).toOption.map (·.1)

/-- The vector of spec/95_test_vectors.md section 2.1: one step on `[W, 0, 0, 0, 99]` with input `[5]`. -/
def probe (w : Int) : State := start [w, 0, 0, 0, 99] [5]

/-! WellFormed: ill-formed terms are refused. -/

/-- R75: the largest word is a legal parameter, the next integer is not. -/
theorem test_wf_refuses_parameter_above_wmax :
    Instr.wf Params.default (.output ⟨.immediate, wmax⟩) = true ∧
      Instr.wf Params.default (.output ⟨.immediate, wmax + 1⟩) = false ∧
      Instr.wf unbounded (.output ⟨.immediate, wmax + 1⟩) = true := by decide

/-- R75: the smallest word is a legal parameter, the integer below is not, as the target of a three-operand
instruction. -/
theorem test_wf_refuses_parameter_below_wmin :
    Instr.wf Params.default (.add ⟨.immediate, 0⟩ ⟨.immediate, 0⟩ ⟨.relative, wmin⟩) = true ∧
      Instr.wf Params.default (.add ⟨.immediate, 0⟩ ⟨.immediate, 0⟩ ⟨.relative, wmin - 1⟩) = false := by decide

/-- R75: each parameter is checked. -/
theorem test_wf_checks_every_parameter :
    Instr.wf Params.default (.mul ⟨.position, wmax + 1⟩ ⟨.position, 0⟩ ⟨.position, 0⟩) = false ∧
      Instr.wf Params.default (.lessThan ⟨.position, 0⟩ ⟨.position, wmax + 1⟩ ⟨.position, 0⟩) = false ∧
      Instr.wf Params.default (.equals ⟨.position, 0⟩ ⟨.position, 0⟩ ⟨.position, wmax + 1⟩) = false ∧
      Instr.wf Params.default (.jumpIfTrue ⟨.position, wmax + 1⟩ ⟨.position, 0⟩) = false ∧
      Instr.wf Params.default (.jumpIfFalse ⟨.position, 0⟩ ⟨.position, wmax + 1⟩) = false ∧
      Instr.wf Params.default (.input ⟨.position, wmax + 1⟩) = false ∧
      Instr.wf Params.default (.adjustRelativeBase ⟨.immediate, wmax + 1⟩) = false ∧
      Instr.wf Params.default .halt = true := by decide

/-! Decoding: words written out digit by digit from R70, R73, R81. -/

/-- R86's example, and two more mode combinations that R77 admits. -/
theorem test_decode_add :
    decoded [21001, 9, 3, 2] = some (.add ⟨.position, 9⟩ ⟨.immediate, 3⟩ ⟨.relative, 2⟩) ∧
      decoded [2101, 9, 3, 2] = some (.add ⟨.immediate, 9⟩ ⟨.relative, 3⟩ ⟨.position, 2⟩) ∧
      decoded [20201, 9, 3, 2] = some (.add ⟨.relative, 9⟩ ⟨.position, 3⟩ ⟨.relative, 2⟩) := by decide

/-- R89: 1002 and 1102. -/
theorem test_decode_mul :
    decoded [1002, 7, 8, 9] = some (.mul ⟨.position, 7⟩ ⟨.immediate, 8⟩ ⟨.position, 9⟩) ∧
      decoded [1102, 7, 8, 9] = some (.mul ⟨.immediate, 7⟩ ⟨.immediate, 8⟩ ⟨.position, 9⟩) := by decide

/-- R89: 3, and 203 of section 2.1. -/
theorem test_decode_input :
    decoded [3, 7] = some (.input ⟨.position, 7⟩) ∧ decoded [203, -3] = some (.input ⟨.relative, -3⟩) := by decide

/-- R89: 204 and 104. -/
theorem test_decode_output :
    decoded [204, -1] = some (.output ⟨.relative, -1⟩) ∧ decoded [104, 7] = some (.output ⟨.immediate, 7⟩) := by decide

/-- R89: 1005; section 2.1: 2205. -/
theorem test_decode_jump_if_true :
    decoded [1005, 19, 14] = some (.jumpIfTrue ⟨.position, 19⟩ ⟨.immediate, 14⟩) ∧
      decoded [2205, 0, 0] = some (.jumpIfTrue ⟨.relative, 0⟩ ⟨.relative, 0⟩) := by decide

/-- R89: 1006. -/
theorem test_decode_jump_if_false :
    decoded [1006, 101, 0] = some (.jumpIfFalse ⟨.position, 101⟩ ⟨.immediate, 0⟩) ∧
      decoded [106, 0, 5] = some (.jumpIfFalse ⟨.immediate, 0⟩ ⟨.position, 5⟩) := by decide

/-- R150: `1107` and `20007`. -/
theorem test_decode_less_than :
    decoded [1107, -1, 0, 5] = some (.lessThan ⟨.immediate, -1⟩ ⟨.immediate, 0⟩ ⟨.position, 5⟩) ∧
      decoded [20007, 1, 2, 3] = some (.lessThan ⟨.position, 1⟩ ⟨.position, 2⟩ ⟨.relative, 3⟩) := by decide

/-- R89: 1008. -/
theorem test_decode_equals :
    decoded [1008, 100, 16, 101] = some (.equals ⟨.position, 100⟩ ⟨.immediate, 16⟩ ⟨.position, 101⟩) ∧
      decoded [22208, 1, 2, 3] = some (.equals ⟨.relative, 1⟩ ⟨.relative, 2⟩ ⟨.relative, 3⟩) := by decide

/-- R89: 109; V-R5: 209. -/
theorem test_decode_adjust_relative_base :
    decoded [109, 1] = some (.adjustRelativeBase ⟨.immediate, 1⟩) ∧
      decoded [209, 0] = some (.adjustRelativeBase ⟨.relative, 0⟩) := by decide

/-- R84: 99, 199, 2099 and 100099 are HALT. -/
theorem test_decode_halt :
    decoded [99] = some .halt ∧ decoded [199] = some .halt ∧ decoded [2099] = some .halt ∧
      decoded [100099] = some .halt := by decide

/-- R84: 100104 and 1104 are OUTPUT with an immediate operand. -/
theorem test_decode_ignores_unused_digits :
    decoded [100104, 7] = some (.output ⟨.immediate, 7⟩) ∧ decoded [1104, 7] = some (.output ⟨.immediate, 7⟩) := by
  decide

/-- R82, R71: words that are no instruction. -/
theorem test_decode_refuses_unknown_opcodes :
    decodeWord 0 = .error (.unknownOpcode 0) ∧ decodeWord 10 = .error (.unknownOpcode 10) ∧
      decodeWord 98 = .error (.unknownOpcode 98) ∧ decodeWord 100 = .error (.unknownOpcode 100) ∧
      decodeWord (-1) = .error (.unknownOpcode (-1)) ∧ decodeWord (-99) = .error (.unknownOpcode (-99)) :=
  ⟨rfl, rfl, rfl, rfl, rfl, rfl⟩

/-- R83: the lowest illegal mode digit is reported. -/
theorem test_decode_refuses_mode_digits :
    decodeWord 10001 = .error (.invalidAddressMode 3 1) ∧ decodeWord 103 = .error (.invalidAddressMode 1 1) ∧
      decodeWord 303 = .error (.invalidAddressMode 1 3) ∧ decodeWord 3005 = .error (.invalidAddressMode 2 3) ∧
      decodeWord 11107 = .error (.invalidAddressMode 3 1) ∧ decodeWord 3301 = .error (.invalidAddressMode 1 3) ∧
      decodeWord 309 = .error (.invalidAddressMode 1 3) :=
  ⟨rfl, rfl, rfl, rfl, rfl, rfl, rfl⟩

/-- R74: a list that ends inside an instruction has none. -/
theorem test_decode_refuses_truncated_lists :
    decode [] = .error .truncated ∧ decode [1101, 1, 2] = .error .truncated := ⟨rfl, rfl⟩

/-- R87: the canonical word of the example of R86. -/
theorem test_encode_example :
    encode (.add ⟨.position, 9⟩ ⟨.immediate, 3⟩ ⟨.relative, 2⟩) = [21001, 9, 3, 2] := by decide

/-! Host interface: table words (log entry 10). -/

/-- A table word is read as 64-bit words, and the words past it are 0. -/
theorem test_table_words :
    decodeTableWord 64 99 = some .halt ∧
      decodeTableWord 128 (104 + 2 ^ 64 * (2 ^ 64 - 5)) = some (.output ⟨.immediate, -5⟩) ∧
      decodeTableWord 64 1101 = some (.add ⟨.immediate, 0⟩ ⟨.immediate, 0⟩ ⟨.position, 0⟩) ∧
      decodeTableWord 64 0 = none := by decide

/-- The placed instruction is the one that the next step runs. -/
theorem test_with_fetch_word :
    outline (State.reset.withFetchWord 128 (104 + 2 ^ 64 * 7)) = some (.cont, 2, 4) ∧
      outline (State.reset.withFetchWord 64 99) = some (.halt, 0, 4) := by decide

/-! One step. -/

/-- V-A3: the address of both sources is the target. -/
theorem test_add_doubles : wordAfter (start [1, 5, 5, 5, 99, 21] []) 5 = some 42 := by decide

/-- V-A5: the sum overflows; nothing is written. -/
theorem test_add_overflows :
    faultOf (start [1101, wmax, 1, 0] []) =
      some (.fault .overflow, .overflow, 0, .value 9223372036854775808, 0, 4) ∧
      wordAfter (start [1101, wmax, 1, 0] []) 0 = some 1101 := by decide

/-- V-A6: with unbounded words it does not. -/
theorem test_add_unbounded :
    wordAfter (startWith unbounded [1101, wmax, 1, 0] []) 0 = some 9223372036854775808 := by decide

/-- V-A7 and V-A9. -/
theorem test_mul_signs :
    wordAfter (start [1102, -3, 4, 5, 99, 0] []) 5 = some (-12) ∧
      wordAfter (start [1102, 0, wmin, 0] []) 0 = some 0 := by decide

/-- V-A8. -/
theorem test_mul_overflows :
    faultOf (start [1102, wmin, -1, 0] []) =
      some (.fault .overflow, .overflow, 0, .value 9223372036854775808, 0, 4) := by decide

/-- V-A10 and V-A11: negative addresses of a source and of a target. -/
theorem test_negative_addresses :
    faultOf (start [1, -1, 0, 0] []) = some (.fault .negativeAddress, .negativeAddress, 0, .value (-1), 0, 4) ∧
      faultOf (start [21101, 3, 4, -1] []) =
        some (.fault .negativeAddress, .negativeAddress, 0, .value (-1), 0, 4) := ⟨by decide, by decide⟩

/-- V-Q1. -/
theorem test_input_pops :
    outline (start [3, 0, 99] [42]) = some (.cont, 2, 3) ∧ wordAfter (start [3, 0, 99] [42]) 0 = some 42 ∧
      onNext (·.iq) (step (start [3, 0, 99] [42])) = some [] := by decide

/-- V-Q2: nothing changes but the response. -/
theorem test_input_empty_queue :
    onNext (fun t => decide (t = (start [3, 0, 99] []).respond .emptyQueue)) (step (start [3, 0, 99] [])) =
      some true := by decide

/-- V-Q4: the provider answers 5. -/
theorem test_input_provider :
    wordAfter { startWith provided [3, 0, 99] [] with answers := [5] } 0 = some 5 := by decide

/-- V-Q6: the fatal check comes before the queue check. -/
theorem test_input_checks_address_first :
    faultOf (start [3, -1] []) = some (.fault .negativeAddress, .negativeAddress, 0, .value (-1), 0, 2) := by decide

/-- R61: an answer that is not a word gets no step. -/
theorem test_input_refuses_answer :
    step { startWith provided [3, 0, 99] [] with answers := [wmax + 1] } = .refused .providerAnswerNotWord := by rfl

/-- V-Q8 and V-Q10. -/
theorem test_output_appends :
    onNext (·.oq) (step (start [4, 0, 99] [])) = some [4] ∧
      onNext (·.oq) (step { start [204, 2, 99] [] with oq := [1] }) = some [1, 99] := by decide

/-- V-J1 and V-J3: any value that is not zero is true. -/
theorem test_jump_if_true :
    outline (start [1105, 1, 7] []) = some (.cont, 7, 3) ∧ outline (start [1105, -1, 9] []) = some (.cont, 9, 3) := by
  decide

/-- V-J5 and V-J7: a jump that is not taken ignores its target. -/
theorem test_jump_if_true_not_taken :
    outline (start [1105, 0, -5, 99] []) = some (.cont, 3, 4) ∧
      outline (start [5, 3, -1, 0, 99] []) = some (.cont, 3, 5) := by decide

/-- E4's jump back, and section 2.1's 6. -/
theorem test_jump_if_false :
    outline (start [1106, 0, 100] []) = some (.cont, 100, 3) ∧ outline (probe 6) = some (.cont, 3, 5) := by decide

/-- V-J4: a taken jump to a negative target. -/
theorem test_jump_if_false_negative_target :
    faultOf (start [1106, 0, -5] []) = some (.fault .negativeAddress, .negativeAddress, 0, .value (-5), 0, 3) := by
  decide

/-- V-CMP1, V-CMP2 and V-CMP3. -/
theorem test_less_than :
    wordAfter (start [1107, -1, 0, 5, 99] []) 5 = some 1 ∧ wordAfter (start [1107, 5, 5, 0] []) 0 = some 0 ∧
      wordAfter (start [1107, wmin, wmax, 0] []) 0 = some 1 := by decide

/-- V-CMP4, V-CMP5 and V-CMP6. -/
theorem test_equals :
    wordAfter (start [1108, -8, 8, 0] []) 0 = some 0 ∧ wordAfter (start [1108, 0, 0, 0] []) 0 = some 1 ∧
      wordAfter (start [8, 0, 0, 0, 99] []) 0 = some 1 := by decide

/-- V-R2, and the second step of V-R5: the operand is resolved with the old base. -/
theorem test_adjust_relative_base :
    onNext (·.rb) (step (start [109, -5, 99] [])) = some (-5) ∧
      onNext (·.rb) (step { start [109, 2, 209, 0, 99] [] with rb := 2, pc := 2 }) = some 211 := by decide

/-- The second step of V-R6. -/
theorem test_adjust_relative_base_overflows :
    faultOf { start [109, wmax, 109, 1] [] with rb := wmax, pc := 2 } =
      some (.fault .overflow, .overflow, 2, .value 9223372036854775808, 2, 4) := by decide

/-- The second step of V-R3. -/
theorem test_relative_address_negative :
    faultOf { start [109, -5, 204, 4, 99] [] with rb := -5, pc := 2 } =
      some (.fault .negativeAddress, .negativeAddress, 2, .value (-1), 2, 5) := by decide

/-- V-H1 and V-H2. -/
theorem test_halt :
    onNext (fun t => (t.response, t.runState, t.pc)) (step (start [99] [])) = some (.halt, .halted, 0) ∧
      onNext (fun t => (t.response, t.runState)) (step { start [99] [] with runState := .halted }) =
        some (.stepAfterHalt, .halted) := by decide

/-- V-H4, the second step: the recorded cause again. -/
theorem test_step_in_faulted :
    onNext (·.response) (step { start [0] [] with runState := .faulted, faultCause := .unknownOpcode }) =
      some (.fault .unknownOpcode) := by decide

/-- V-G1, V-G2 and V-G3: growth by reading. -/
theorem test_growth :
    outline (start [4, 63, 99] []) = some (.cont, 2, 64) ∧ outline (start [4, 64, 99] []) = some (.cont, 2, 128) ∧
      outline (start [4, 4095, 99] []) = some (.cont, 2, 4096) := by decide

/-- V-G4 and V-G5: the ceiling, and none. -/
theorem test_ceiling :
    faultOf (start [4, 4096, 99] []) = some (.fault .outOfMemory, .outOfMemory, 0, .value 4096, 0, 3) ∧
      outline (startWith { Params.default with memCap := none } [4, 4096, 99] []) = some (.cont, 2, 8192) := by decide

/-- V-G12: the fetch's growth is undone. -/
theorem test_fetch_of_nothing :
    faultOf (start [] []) = some (.fault .unknownOpcode, .unknownOpcode, 0, .value 0, 0, 0) := by decide

/-- Section 2.1: 10001 and 103, the input not consumed. -/
theorem test_illegal_modes :
    faultOf (probe 10001) = some (.fault .invalidAddressMode, .invalidAddressMode, 0, .modeDigit 3 1, 0, 5) ∧
      onNext (·.iq) (step (probe 103)) = some [5] := by decide

/-- V-H3 and V-H7: the HALTED query. -/
theorem test_halted_query :
    (start [99] []).isHalted = true ∧ ({ start [1106, 0, 100] [] with pc := 100 }).isHalted = false := by decide

/-- V-Q13 and V-Q11. -/
theorem test_queue_transactions :
    (start [99] []).ioPush? (wmax + 1) = none ∧ (start [99] []).ioPop? = none ∧
      ((start [99] []).ioPush? wmax).map (·.iq) = some [wmax] := by decide

/-- V-H6: RESET leaves Faulted and clears the fault registers. -/
theorem test_reset_leaves_faulted :
    (({ start [0] [] with runState := .faulted, faultCause := .unknownOpcode }).resetWith? [99] []).map
      (fun t : State => (t.runState, t.faultCause, t.faultPc, t.faultInfo)) =
      some (RunState.runnable, Cause.none, 0, FaultInfo.value 0) := by decide

/-- R180: the codes. -/
theorem test_codes :
    [Cause.none, .unknownOpcode, .invalidAddressMode, .negativeAddress, .outOfMemory, .overflow].map Cause.code =
        [0, 1, 2, 3, 4, 7] ∧
      StepResponse.emptyQueue.code = 5 ∧ StepResponse.stepAfterHalt.code = 6 ∧
      Reply.emptyQueue.code? = some 5 ∧ (Reply.stepped (.fault .overflow)).code? = some 7 ∧
      (Reply.ran (.response .stepAfterHalt)).code? = some 6 ∧ Reply.rejected.code? = none ∧
      [RunState.runnable, .halted, .faulted].map RunState.code = [0, 1, 2] := by decide

/-! The loader and the listings. -/

/-- Section 2.9: texts the loader reads. -/
theorem test_loader_reads :
    loadText Params.default ['1', ',', '2', ',', '3', '\n'] = some [1, 2, 3] ∧
      loadText Params.default [' ', '1', ',', '-', '2', ' '] = some [1, -2] ∧
      loadText Params.default ['0', '0', '7', ',', '-', '0'] = some [7, 0] := by decide

/-- Section 2.9: texts that are no image. -/
theorem test_loader_fails :
    loadText Params.default ['1', ',', ' ', '2'] = none ∧ loadText Params.default ['1', ',', ',', '2'] = none ∧
      loadText Params.default ['1', ',', '2', ','] = none ∧ loadText Params.default [] = none ∧
      loadText Params.default ['+', '5'] = none := by decide

/-- R215: a character that is no digit after the first one. -/
theorem test_loader_fails_inside_a_token :
    loadText Params.default ['1', 'a'] = none ∧ loadText Params.default ['-', '+', '5'] = none ∧
      loadText Params.default ['1', '-', '2'] = none := by decide

/-- R216 on E1's texts, and R86's example. -/
theorem test_texts :
    imageText [-7, 12] = ['-', '7', ',', '1', '2'] ∧
      listing (.add ⟨.position, 9⟩ ⟨.immediate, 3⟩ ⟨.relative, 2⟩) =
        ['A', 'D', 'D', ' ', '[', '9', ']', ',', ' ', '#', '3', ',', ' ', '[', 'r', 'b', '+', '2', ']'] := by decide

/-! Witnesses: states and operands that meet every hypothesis of the statement named, clause by clause. -/

/-- EncodedWordsAreWords, at the largest and the smallest word. -/
theorem test_witness_encoded_words_are_words :
    Params.default.wf ∧ Instr.wf Params.default (.jumpIfTrue ⟨.immediate, wmax⟩ ⟨.relative, wmin⟩) = true ∧
      wmin ∈ encode (.jumpIfTrue ⟨.immediate, wmax⟩ ⟨.relative, wmin⟩) := by decide

/-- DecodedWordHasItsFields, for instructions of 3, 2, 1 and 0 parameters. -/
theorem test_witness_decoded_word_has_its_fields :
    decodeWord 21001 = .ok (.add .position .immediate .relative) ∧
      decodeWord 1205 = .ok (.jumpIfTrue .relative .immediate) ∧ decodeWord 203 = .ok (.input .relative) ∧
      decodeWord 399 = .ok .halt := ⟨rfl, rfl, rfl, rfl⟩

/-- UnusedDigitsAreIgnored, where digits are dropped, for each number of parameters. -/
theorem test_witness_unused_digits :
    paramCountOf (100104 % 100) = some 1 ∧ paramCountOf (999999 % 100) = some 0 ∧
      paramCountOf (131005 % 100) = some 2 ∧ paramCountOf (321101 % 100) = some 3 := by decide

/-- GrowthAppendsZerosToCapacity, each clause at its boundary. -/
theorem test_witness_growth :
    (Memory.ofImage [4, 0, 99]).wf ∧ 2 < (Memory.ofImage [4, 0, 99]).len ∧
      (Memory.ofImage [4, 0, 99]).len ≤ 3 ∧ cap 3 ≤ 4096 ∧ cap 4095 ≤ 4096 ∧ 4096 < cap 4096 := by decide

/-- MemWriteChangesOneWord, at the last address of the ceiling. -/
theorem test_witness_mem_write : ∃ t, memWrite 4095 7 (start [99] []) = .ok t := ⟨_, rfl⟩

/-- CanonicalMemoriesAreEqualByReads: a memory grown and written back to 0 is in the canonical form. -/
theorem test_witness_canonical :
    ((Memory.ofImage [5, 7]).store 1 0).wf ∧ (Memory.ofImage [5, 0]).wf ∧
      ((Memory.ofImage [5, 7]).store 1 0).len = (Memory.ofImage [5, 0]).len ∧
      (Memory.ofImage [5, 7]).store 1 0 = Memory.ofImage [5, 0] := by decide

/-- StepGrowsMemoryOnlyToCapacities and StepKeepsTheInvariant: a step that grows memory. -/
theorem test_witness_step_grows :
    (∃ t, step (start [1101, 1, 1, 64] []) = .next t ∧ t.mem.len = 128) ∧ (start [1101, 1, 1, 64] []).Inv :=
  ⟨⟨_, rfl, rfl⟩,
    ⟨by decide, by decide, by decide, by decide, by decide, by decide, by decide, by decide, by decide⟩⟩

/-- LengthAfterAccessesIsCapOfLargest: one access; a list, past the length and inside it. -/
theorem test_witness_length_after :
    (∃ t, access 64 (start [99] []) = .ok t ∧ t.mem.len = 128) ∧
      (64 ∈ [3, 64, 5] ∧ ∀ a ∈ [3, 64, 5], a ≤ 64) ∧ lengthAfter 5 [3, 64, 5] = 128 ∧
      lengthAfter 65 [3, 64, 5] = 65 :=
  ⟨⟨_, rfl, rfl⟩, by decide, by decide, by decide⟩

/-- LengthAfterAccessesIsCapOfLargest, a step whose target is the largest address it accesses, and a HALT. -/
theorem test_witness_length_after_step :
    (decode ((wordsFrom 0 4).map (start [1101, 1, 1, 64] []).mem.read) =
        .ok (.add ⟨.immediate, 1⟩ ⟨.immediate, 1⟩ ⟨.position, 64⟩, []) ∧
      (∃ t, step (start [1101, 1, 1, 64] []) = .next t ∧ t.response = .cont) ∧
      64 ∈ wordsFrom 0 4 ++ (start [1101, 1, 1, 64] []).accesses (.add ⟨.immediate, 1⟩ ⟨.immediate, 1⟩ ⟨.position, 64⟩) ∧
      ∀ a ∈ wordsFrom 0 4 ++
        (start [1101, 1, 1, 64] []).accesses (.add ⟨.immediate, 1⟩ ⟨.immediate, 1⟩ ⟨.position, 64⟩), a ≤ 64) ∧
      decode ((wordsFrom 0 1).map (start [99] []).mem.read) = .ok (.halt, []) ∧
      (∃ t, step (start [99] []) = .next t ∧ t.response = .halt) ∧
      0 ∈ wordsFrom 0 1 ++ (start [99] []).accesses .halt ∧ ∀ a ∈ wordsFrom 0 1 ++ (start [99] []).accesses .halt, a ≤ 0 :=
  ⟨⟨rfl, ⟨_, rfl, rfl⟩, by decide, by decide⟩, rfl, ⟨_, rfl, rfl⟩, by decide, by decide⟩

/-- A state whose words at 0 to 3 are 0, 1, -1 and WMAX, with the base at 1. -/
def small : State := { start [0, 1, -1, wmax] [] with rb := 1 }

/-- AddStoresTheSum, LessThanStoresTheComparison and EqualsStoresTheComparison: the sum is WMAX itself, and the target
the last address that growth can reach. -/
theorem test_witness_add :
    small.readable ⟨.relative, 2⟩ ∧ small.readable ⟨.position, 4095⟩ ∧ small.writable ⟨.relative, 4094⟩ ∧
      small.valueOf ⟨.relative, 2⟩ = wmax ∧ small.valueOf ⟨.position, 4095⟩ = 0 ∧
      small.cfg.inRange (small.valueOf ⟨.relative, 2⟩ + small.valueOf ⟨.position, 4095⟩) = true := by decide

/-- MulStoresTheProduct: the product is -WMAX. -/
theorem test_witness_mul :
    small.readable ⟨.position, 3⟩ ∧ small.readable ⟨.relative, 1⟩ ∧ small.writable ⟨.position, 0⟩ ∧
      small.cfg.inRange (small.valueOf ⟨.position, 3⟩ * small.valueOf ⟨.relative, 1⟩) = true := by decide

/-- InputStoresTheQueuedValue. -/
theorem test_witness_input_queued :
    (start [3, 0] [42, 43]).writable ⟨.position, 4095⟩ ∧ (start [3, 0] [42, 43]).iq = 42 :: [43] := by decide

/-- The machine under the policy PROVIDER with answers in hand. -/
def answering (vs : List Int) : State := { startWith provided [3, 0] [] with answers := vs }

/-- InputStoresTheProvidersAnswer, at the largest word; InputStoresSomeWordWithoutAnswerInHand, with none in hand;
InputRefusesAnswerThatIsNoWord, at the integer after the largest word. -/
theorem test_witness_input_provider :
    (answering [wmax, 1]).writable ⟨.position, 0⟩ ∧ (answering [wmax, 1]).iq = [] ∧
      (answering [wmax, 1]).cfg.policy = .provider ∧ (answering [wmax, 1]).answers = wmax :: [1] ∧
      (answering [wmax, 1]).cfg.inRange wmax = true ∧ (answering []).writable ⟨.position, 0⟩ ∧
      (answering []).answers = [] ∧ (answering [wmax + 1]).answers = (wmax + 1) :: [] ∧
      (answering [wmax + 1]).cfg.inRange (wmax + 1) = false := by decide

/-- InputOnEmptyQueueRespondsEmptyQueue. -/
theorem test_witness_input_empty :
    (start [3, 0] []).writable ⟨.position, 0⟩ ∧ (start [3, 0] []).iq = [] ∧ (start [3, 0] []).cfg.policy = .fault := by
  decide

/-- OutputAppendsTheOperand: an immediate is readable whatever its value; so is address 0 by the base. -/
theorem test_witness_output : small.readable ⟨.immediate, -7⟩ ∧ small.readable ⟨.relative, -1⟩ := by decide

/-- JumpIfTrueJumpsWhenNotZero and JumpIfFalseJumpsWhenZero: both clauses of each, with the target 0, and a target that
cannot be read where the jump is not taken. -/
theorem test_witness_jumps :
    small.readable ⟨.position, 2⟩ ∧ small.valueOf ⟨.position, 2⟩ ≠ 0 ∧ small.readable ⟨.relative, -1⟩ ∧
      0 ≤ small.valueOf ⟨.relative, -1⟩ ∧ small.readable ⟨.position, 0⟩ ∧ small.valueOf ⟨.position, 0⟩ = 0 ∧
      ¬ small.readable ⟨.position, -1⟩ := by decide

/-- AdjustRelativeBaseAddsTheOperand: the new base is WMAX. -/
theorem test_witness_adjust :
    small.readable ⟨.immediate, wmax - 1⟩ ∧
      small.cfg.inRange (small.rb + small.valueOf ⟨.immediate, wmax - 1⟩) = true := by decide

/-- ResultsThatAreNoWordsOverflow: the sum, the product and the new base are all WMAX + 1 or beyond. -/
theorem test_witness_overflow :
    small.readable ⟨.position, 3⟩ ∧ small.readable ⟨.immediate, 2⟩ ∧ small.writable ⟨.position, 0⟩ ∧
      small.cfg.inRange (small.valueOf ⟨.position, 3⟩ + small.valueOf ⟨.immediate, 2⟩) = false ∧
      small.cfg.inRange (small.valueOf ⟨.position, 3⟩ * small.valueOf ⟨.immediate, 2⟩) = false ∧
      small.cfg.inRange (small.rb + small.valueOf ⟨.position, 3⟩) = false := by decide

/-- TakenJumpToNegativeTargetFaults: both clauses, with the target -1. -/
theorem test_witness_negative_target :
    small.readable ⟨.position, 1⟩ ∧ small.readable ⟨.relative, 1⟩ ∧ small.valueOf ⟨.relative, 1⟩ < 0 ∧
      small.valueOf ⟨.position, 1⟩ ≠ 0 ∧ small.readable ⟨.position, 0⟩ ∧ small.valueOf ⟨.position, 0⟩ = 0 := by decide

/-- ThreeOperandInstructionsTakeFirstAddressFault: a fault of the target after two operands that can be read, a fault of
`b` before the target's, and at the first address past the ceiling. -/
theorem test_witness_three_operand_faults :
    small.firstFault (small.effective ⟨.position, 0⟩ ++ small.effective ⟨.immediate, -9⟩ ++
        [WriteTarget.address small.rb ⟨.relative, -2⟩]) = some (.negativeAddress (-1)) ∧
      small.firstFault (small.effective ⟨.position, 0⟩ ++ small.effective ⟨.position, 4096⟩ ++
        [WriteTarget.address small.rb ⟨.relative, -2⟩]) = some (.outOfMemory 4096) := by decide

/-- OneOperandInstructionsTakeAddressFault: both clauses. -/
theorem test_witness_one_operand_faults :
    small.firstFault [WriteTarget.address small.rb ⟨.relative, -2⟩] = some (.negativeAddress (-1)) ∧
      small.firstFault (small.effective ⟨.relative, 4095⟩) = some (.outOfMemory 4096) := by decide

/-- JumpsTakeFirstAddressFault: each clause. -/
theorem test_witness_jump_faults :
    small.firstFault (small.effective ⟨.position, -1⟩) = some (.negativeAddress (-1)) ∧
      (small.firstFault (small.effective ⟨.position, 1⟩ ++ small.effective ⟨.position, 4096⟩) =
          some (.outOfMemory 4096) ∧ small.valueOf ⟨.position, 1⟩ ≠ 0) ∧
      (small.firstFault (small.effective ⟨.position, 0⟩ ++ small.effective ⟨.position, -1⟩) =
          some (.negativeAddress (-1)) ∧ small.valueOf ⟨.position, 0⟩ = 0) := by decide

/-- ThreeOperandFrame: an instruction that completes and one that does not. -/
theorem test_witness_three_operand_frame :
    (∃ t, exec (.add ⟨.position, 1⟩ ⟨.position, 1⟩ ⟨.position, 0⟩) small = .next t ∧ t.response = .cont) ∧
      ∃ t, exec (.mul ⟨.position, 3⟩ ⟨.immediate, 2⟩ ⟨.position, 0⟩) small = .next t ∧ t.response ≠ .cont :=
  ⟨⟨_, rfl, rfl⟩, ⟨_, rfl, by decide⟩⟩

/-- InputFrame: each kind of response. -/
theorem test_witness_input_frame :
    (∃ t, exec (.input ⟨.position, 0⟩) (start [3, 0] [42]) = .next t ∧ t.response = .cont) ∧
      (∃ t, exec (.input ⟨.position, 0⟩) (start [3, 0] []) = .next t ∧ t.response = .emptyQueue) ∧
      ∃ t, exec (.input ⟨.position, -1⟩) (start [3, 0] []) = .next t ∧ t.response = .fault .negativeAddress :=
  ⟨⟨_, rfl, rfl⟩, ⟨_, rfl, rfl⟩, ⟨_, rfl, rfl⟩⟩

/-- NonStoringFrame: an instruction that completes, one that does not, and HALT. -/
theorem test_witness_non_storing_frame :
    (∃ t, exec (.output ⟨.position, 1⟩) small = .next t ∧ t.response = .cont) ∧
      (∃ t, exec (.jumpIfTrue ⟨.position, -1⟩ ⟨.position, 0⟩) small = .next t ∧ t.response ≠ .cont) ∧
      ∃ t, exec .halt small = .next t ∧ t.response = .halt :=
  ⟨⟨_, rfl, rfl⟩, ⟨_, rfl, by decide⟩, ⟨_, rfl, rfl⟩⟩

/-- OnlyTheirInstructionsWriteBaseAndRunState: a changed base, and a move to Halted. -/
theorem test_witness_base_and_run_state :
    (∃ t, exec (.adjustRelativeBase ⟨.immediate, 1⟩) small = .next t ∧ t.rb ≠ small.rb) ∧
      ∃ t, exec .halt small = .next t ∧ t.runState = .halted ∧ small.runState ≠ .halted :=
  ⟨⟨_, rfl, by decide⟩, ⟨_, rfl, rfl, by decide⟩⟩

/-- StepRunsTheDecodedInstruction: an instruction whose last word lies past the memory. -/
theorem test_witness_step_runs :
    (start [1101, 1, 1] []).runState = .runnable ∧
      decode ((wordsFrom (start [1101, 1, 1] []).pc
          (Instr.length (.add ⟨.immediate, 1⟩ ⟨.immediate, 1⟩ ⟨.position, 0⟩))).map (start [1101, 1, 1] []).mem.read) =
        .ok (.add ⟨.immediate, 1⟩ ⟨.immediate, 1⟩ ⟨.position, 0⟩, []) ∧
      ∀ x ∈ wordsFrom 0 4, (start [1101, 1, 1] []).addressable (x : Int) := ⟨rfl, rfl, by decide⟩

/-- UnknownOpcodeStepFaults: a negative word, and the 0 of grown memory at the last address. -/
theorem test_witness_unknown_opcode :
    (start [-99] []).runState = .runnable ∧ (start [-99] []).addressable 0 ∧ (start [-99] []).mem.read 0 < 0 ∧
      ({ start [99] [] with pc := 4095 }).addressable 4095 ∧
      ((start [99] []).mem.read 4095).toNat % 100 ∉ [1, 2, 3, 4, 5, 6, 7, 8, 9, 99] := by decide

/-- IllegalModeStepFaults: the third digit, after two legal ones. -/
theorem test_witness_illegal_mode :
    (probe 10001).runState = .runnable ∧ (probe 10001).addressable 0 ∧ 0 ≤ (probe 10001).mem.read 0 ∧
      paramCountOf (((probe 10001).mem.read 0).toNat % 100) = some 3 ∧ admitsDigit 1 3 1 = false ∧
      admitsDigit 1 1 (10001 / 10 ^ 2 % 10) = true ∧ admitsDigit 1 2 (10001 / 10 ^ 3 % 10) = true := by decide

/-- A machine whose four words of memory stand under a ceiling of 4, at an ADD in the last one. -/
def atTheEnd : State := { startWith { Params.default with memCap := some 4 } [0, 0, 0, 1] [] with pc := 3 }

/-- FetchPastTheCeilingFaults: the word itself, and its first parameter. -/
theorem test_witness_fetch_past_the_ceiling :
    ¬ ({ start [99] [] with pc := 4096 }).addressable 4096 ∧ atTheEnd.runState = .runnable ∧
      (decodeWord (atTheEnd.mem.read atTheEnd.pc)).toOption = some (.add .position .position .position) ∧
      (∀ x ∈ wordsFrom atTheEnd.pc 1, atTheEnd.addressable (x : Int)) ∧ ¬ atTheEnd.addressable 4 := by decide

/-- FaultingStepCommitsNothing: a fault after a growth. -/
theorem test_witness_faulting_step :
    ∃ t, step (start [1, 100, -1, 0] []) = .next t ∧ t.runState = .faulted ∧ t.mem.len = 4 :=
  ⟨_, rfl, rfl, rfl⟩

/-- EmptyQueueStepChangesNothing and PushAfterEmptyQueueLetsInputComplete. -/
theorem test_witness_empty_queue_step :
    (∃ t, step (start [3, 100] []) = .next t ∧ t.response = .emptyQueue) ∧
      (start [3, 100] []).cfg.inRange wmin = true :=
  ⟨⟨_, rfl, rfl⟩, by decide⟩

/-- StepInHaltedOnlyResponds and StepInFaultedOnlyResponds. -/
theorem test_witness_stopped_machines :
    ({ start [99] [] with runState := .halted }).runState = .halted ∧
      ({ start [0] [] with runState := .faulted, faultCause := .unknownOpcode }).runState = .faulted := by decide

/-- StepOnHaltWordHalts and OnlyHaltWordMovesToHalted, on a HALT word with ignored digits. -/
theorem test_witness_halt_word :
    (start [2099] []).runState = .runnable ∧ (start [2099] []).isHalted = true ∧ (start [2099] []).mem.wf ∧
      ∃ t, step (start [2099] []) = .next t ∧ t.runState = .halted :=
  ⟨by decide, by decide, by decide, ⟨_, rfl, rfl⟩⟩

/-- StepIgnoresAnswersItDoesNotAskFor: each case of the second clause, and, for the first, steps under PROVIDER with an
empty queue: an ADD, and an INPUT whose target faults. -/
theorem test_witness_no_request :
    ({ startWith provided [3, 0] [1] with answers := [2] }).iq ≠ [] ∧ (start [3, 0] []).cfg.policy = .fault ∧
      (∃ t, step (startWith provided [1, 0, 0, 0] []) = .next t ∧ t.provides = 0) ∧
      ∃ t, step (startWith provided [3, -1] []) = .next t ∧ t.provides = 0 :=
  ⟨by decide, rfl, ⟨_, rfl, rfl⟩, ⟨_, rfl, rfl⟩⟩

/-- UnboundedWordsNeverOverflow: a step that faults for another reason. -/
theorem test_witness_unbounded :
    (startWith unbounded [1, -1, 0, 0] []).cfg.wordBits = none ∧
      (startWith unbounded [1, -1, 0, 0] []).runState = .runnable ∧
      ∃ t, step (startWith unbounded [1, -1, 0, 0] []) = .next t ∧ t.runState = .faulted :=
  ⟨rfl, rfl, ⟨_, rfl, rfl⟩⟩

/-- AcceptedResetHasTheInvariant and ResetInstallsImageAndInput: accepted at both ends of the range, rejected past
them. -/
theorem test_witness_reset :
    small.cfg.wf ∧ (small.resetWith? [wmax, wmin] [wmin]).isSome = true ∧
      (∀ v ∈ [wmax, wmin] ++ [wmin], small.cfg.inRange v = true) ∧
      (wmax + 1 ∈ [1] ++ [wmax + 1] ∧ small.cfg.inRange (wmax + 1) = false) := by decide

/-- HostQueueTransactionsAreFifo: a word, an integer that is none, an empty and a full output queue. -/
theorem test_witness_queues :
    small.cfg.inRange wmin = true ∧ small.cfg.inRange (wmin - 1) = false ∧ small.oq = [] ∧
      ({ small with oq := [7, 8] }).oq = 7 :: [8] := by decide

/-- RunStopsAtFirstStepThatDoesNotContinue: a RUN that stops at its first step. -/
theorem test_witness_run : ∃ t, run 1 (start [99] []) = .next (.response .halt, t) := ⟨_, rfl⟩

/-- V-Q3 as a run: RESET, a step that responds EMPTY_QUEUE, IO_PUSH(7), a step; and the HALT after it. -/
def suspendedRun : List (List Request) := [[], [.ioPush 7], []]

/-- RunsEndAtHaltAndAtFaultOnly: a run that is suspended, goes on after the push and ends normally. -/
theorem test_witness_runs :
    comesTo (start [3, 0, 99] []) (suspendedRun.take 1) .emptyQueue ((start [3, 0, 99] []).respond .emptyQueue) ∧
      endsNormally (start [3, 0, 99] []) suspendedRun :=
  have hr : (start [3, 0, 99] []).justReset := ⟨State.reset, [3, 0, 99], [], rfl⟩
  ⟨⟨hr, [], by decide, rfl⟩, ⟨_, hr, [.emptyQueue, .cont], by decide, rfl⟩⟩

/-- RunsEndAtHaltAndAtFaultOnly: a run that ends in a fault (V-H4). -/
theorem test_witness_run_ends_in_fault : endsInFault (start [0] []) [[]] :=
  ⟨.unknownOpcode, _, ⟨State.reset, [0], [], rfl⟩, [], by decide, rfl⟩

/-- V-J8: a jump to itself is a hang. -/
theorem test_hang : hangs (start [1105, 1, 0] []) (fun _ => []) := by
  have loops : ∀ n (s : State), step s = .next ((start [1105, 1, 0] []).respond .cont) →
      ∃ t, runWith (List.replicate n []) s = some (List.replicate n .cont, t) := by
    intro n
    induction n with
    | zero => exact fun s _ => ⟨s, rfl⟩
    | succ n ih =>
      intro s h
      obtain ⟨t, ht⟩ := ih _ (show step ((start [1105, 1, 0] []).respond .cont) = _ from rfl)
      exact ⟨t, by simp only [List.replicate_succ, runWith, serveBetween, h, ht]; rfl⟩
  exact ⟨⟨State.reset, [1105, 1, 0], [], rfl⟩, fun n => by simpa [List.map_const'] using loops n _ rfl⟩

/-- LoaderReadsBackImageText, and tokens of each kind of LoaderFailsWholeOnBadToken. -/
theorem test_witness_loader :
    (∀ w ∈ [wmin, 0, wmax], Params.default.inRange w = true) ∧ '+' ≠ '-' ∧ digitValue? '+' = none ∧
      tokenValue ['9', '2', '2', '3', '3', '7', '2', '0', '3', '6', '8', '5', '4', '7', '7', '5', '8', '0', '8'] =
        some (wmax + 1) ∧ Params.default.inRange (wmax + 1) = false := by decide

end Sys2Proof.Tests
end

section
/-! The invariant of the machine (spec/10_state.md R33) and what else one step can do to its state: the laws they need
first, each said once, then the obligations of the family. -/

namespace Sys2Proof

/-! The decoder: which header each shape of modes gives, and when it is HALT. -/

theorem threeModes_ok {n : Nat} {h : ReadMode → ReadMode → WriteMode → Header} {hd : Header}
    (e : threeModes n h = .ok hd) :
    ∃ m1 m2 m3, dec 2 n = m1.digit ∧ dec 3 n = m2.digit ∧ dec 4 n = m3.digit ∧ hd = h m1 m2 m3 := by
  cases h1 : readModeOf 1 (dec 2 n) with
  | error r => simp [threeModes, h1] at e
  | ok m1 =>
    cases h2 : readModeOf 2 (dec 3 n) with
    | error r => simp [threeModes, h1, h2] at e
    | ok m2 =>
      cases h3 : writeModeOf 3 (dec 4 n) with
      | error r => simp [threeModes, h1, h2, h3] at e
      | ok m3 =>
        simp only [threeModes, h1, h2, h3, Except.ok.injEq] at e
        exact ⟨m1, m2, m3, readModeOf_ok h1, readModeOf_ok h2, writeModeOf_ok h3, e.symm⟩

theorem twoModes_ok {n : Nat} {h : ReadMode → ReadMode → Header} {hd : Header} (e : twoModes n h = .ok hd) :
    ∃ m1 m2, dec 2 n = m1.digit ∧ dec 3 n = m2.digit ∧ hd = h m1 m2 := by
  cases h1 : readModeOf 1 (dec 2 n) with
  | error r => simp [twoModes, h1] at e
  | ok m1 =>
    cases h2 : readModeOf 2 (dec 3 n) with
    | error r => simp [twoModes, h1, h2] at e
    | ok m2 =>
      simp only [twoModes, h1, h2, Except.ok.injEq] at e
      exact ⟨m1, m2, readModeOf_ok h1, readModeOf_ok h2, e.symm⟩

theorem oneReadMode_ok {n : Nat} {h : ReadMode → Header} {hd : Header} (e : oneReadMode n h = .ok hd) :
    ∃ m1, dec 2 n = m1.digit ∧ hd = h m1 := by
  cases h1 : readModeOf 1 (dec 2 n) with
  | error r => simp [oneReadMode, h1] at e
  | ok m1 =>
    simp only [oneReadMode, h1, Except.ok.injEq] at e
    exact ⟨m1, readModeOf_ok h1, e.symm⟩

theorem oneWriteMode_ok {n : Nat} {h : WriteMode → Header} {hd : Header} (e : oneWriteMode n h = .ok hd) :
    ∃ m1, dec 2 n = m1.digit ∧ hd = h m1 := by
  cases h1 : writeModeOf 1 (dec 2 n) with
  | error r => simp [oneWriteMode, h1] at e
  | ok m1 =>
    simp only [oneWriteMode, h1, Except.ok.injEq] at e
    exact ⟨m1, writeModeOf_ok h1, e.symm⟩

/-- Digits that decode to HALT end in 99: every other opcode gives its own header (R81). -/
theorem decodeDigits_halt {n : Nat} (e : decodeDigits n = .ok .halt) : n % 100 = 99 := by
  unfold decodeDigits at e
  split at e
  case h_10 h99 => exact h99
  case h_11 => cases e
  case h_3 => obtain ⟨_, _, h⟩ := oneWriteMode_ok e; cases h
  case h_4 | h_9 => obtain ⟨_, _, h⟩ := oneReadMode_ok e; cases h
  case h_5 | h_6 => obtain ⟨_, _, _, _, h⟩ := twoModes_ok e; cases h
  case h_1 | h_2 | h_7 | h_8 => obtain ⟨_, _, _, _, _, _, h⟩ := threeModes_ok e; cases h

/-- The HALT words: not negative, with 99 as the low two digits, whatever the other digits are (R81, R84). -/
theorem decodeWord_eq_halt_iff {w : Int} : decodeWord w = .ok .halt ↔ 0 ≤ w ∧ w.toNat % 100 = 99 := by
  by_cases hw : w < 0
  · simp [decodeWord, hw, Int.not_le.mpr hw]
  · simp only [decodeWord, hw, if_false, Int.not_lt.mp hw, true_and]
    exact ⟨decodeDigits_halt, fun h => by simp [decodeDigits, h]⟩

theorem Header.assemble_eq_halt_iff {hd : Header} {ps : List Int} : hd.assemble ps = .halt ↔ hd = .halt := by
  cases hd <;> simp [Header.assemble]

/-- An instruction assembled from words has words as its parameters (R75). -/
theorem Header.assemble_wf {p : Params} (hd : Header) {ps : List Int} (h0 : p.inRange 0 = true)
    (hps : ∀ v ∈ ps, p.inRange v = true) : (hd.assemble ps).wf p = true := by
  have hget (k : Nat) : p.inRange (ps.getD k 0) = true := by
    by_cases hk : k < ps.length
    · simpa [hk] using hps _ (List.getElem_mem hk)
    · simpa [Nat.not_lt.mp hk] using h0
  cases hd <;> simp only [Header.assemble, Instr.wf, Instr.params, List.all_cons, List.all_nil, hget, Bool.and_self]

end Sys2Proof

namespace Sys2Proof.Machine

/-! Memory: its listed words, and the lengths accesses give it. -/

/-- What is listed in a canonical memory is exactly what reads as a word that is not 0 (log entry 9). -/
theorem Memory.mem_cells_iff {m : Memory} (h : m.wf) (c : Nat × Int) : c ∈ m.cells ↔ m.read c.1 = c.2 ∧ c.2 ≠ 0 := by
  constructor
  · exact fun hc => ⟨lookup_of_mem h.1 hc, (h.2 c hc).2⟩
  · rintro ⟨hr, hne⟩
    have hmem := mem_of_lookup (cells := m.cells) (a := c.1) (by rwa [← hr] at hne)
    rwa [show lookup m.cells c.1 = c.2 from hr] at hmem

/-- A list in strict address order is determined by its members. -/
theorem eq_of_mem_iff_of_pairwise {xs ys : List (Nat × Int)} (hx : xs.Pairwise (fun x y => x.1 < y.1))
    (hy : ys.Pairwise (fun x y => x.1 < y.1)) (h : ∀ c, c ∈ xs ↔ c ∈ ys) : xs = ys := by
  have nodup {zs : List (Nat × Int)} (hz : zs.Pairwise (fun x y => x.1 < y.1)) : zs.Nodup :=
    hz.imp fun hlt e => Nat.ne_of_lt hlt (congrArg Prod.fst e)
  exact ((List.perm_ext_iff_of_nodup (nodup hx) (nodup hy)).mpr h).eq_of_pairwise
    (fun _ _ _ _ h1 h2 => absurd h1 (Nat.lt_asymm h2)) hx hy

theorem inRange_zero {p : Params} (hp : p.wf) : p.inRange 0 = true := inRange_bit hp (.inl rfl)

/-- A memory whose listed words are words reads as a word everywhere (R7, R44). -/
theorem Memory.inRange_read {p : Params} (hp : p.wf) {m : Memory} (h : ∀ c ∈ m.cells, p.inRange c.2 = true) (a : Nat) :
    p.inRange (m.read a) = true := by
  by_cases h0 : m.read a = 0
  · rw [h0]
    exact inRange_zero hp
  · exact h _ (mem_of_lookup h0)

/-- Accesses that succeed leave the length alone, or make it the capacity of one address past it (R41). -/
theorem lengthAfter_eq_or_cap {memCap : Option Nat} {len : Nat} {xs : List Nat}
    (h : ∀ x ∈ xs, x < len ∨ fits memCap (cap x) = true) :
    lengthAfter len xs = len ∨
      ∃ a, len ≤ a ∧ lengthAfter len xs = cap a ∧ fits memCap (cap a) = true := by
  induction xs generalizing len with
  | nil => exact .inl rfl
  | cons x xs ih =>
    by_cases hx : x < len
    · simp only [lengthAfter, hx, if_true]
      exact ih fun y hy => h y (List.mem_cons_of_mem _ hy)
    · have hfits := (h x (List.mem_cons_self ..)).resolve_left hx
      have hlen : len ≤ cap x := by have := cap_gt x; omega
      simp only [lengthAfter, hx, if_false]
      rcases ih (len := cap x) fun y hy => (h y (List.mem_cons_of_mem _ hy)).imp_left (·.trans_le hlen) with
        e | ⟨a, ha, e⟩
      · exact .inr ⟨x, Nat.not_lt.mp hx, e, hfits⟩
      · exact .inr ⟨a, hlen.trans ha, e⟩

theorem le_of_fits {memCap : Option Nat} {n c : Nat} (h : fits memCap n = true) (hc : c ∈ memCap) : n ≤ c := by
  obtain rfl : memCap = some c := hc
  simpa [fits] using h

/-! The work of an instruction: what it keeps, and what it accesses. -/

theorem takeInput_frame {s u : State} {v : Int} (h : takeInput s = .ok (v, u)) :
    u.cfg = s.cfg ∧ u.mem = s.mem ∧ u.rb = s.rb ∧ u.runState = s.runState := by
  rcases takeInput_ok h with ⟨rest, -, rfl⟩ | ⟨-, -, -, -, rfl⟩ <;> exact ⟨rfl, rfl, rfl, rfl⟩

/-- The work of an instruction never touches RUN_STATE, and only ADJUST-RELATIVE-BASE's touches the base (R22). -/
theorem workOf_frame {i : Instr} {s u : State} (h : workOf s i = .ok u) :
    u.runState = s.runState ∧ (u.rb ≠ s.rb → ∃ a, i = .adjustRelativeBase a) := by
  cases i with
  | add a b c | mul a b c | lessThan a b c | equals a b c =>
    obtain ⟨-, -, -, -, rfl⟩ := threeOperand_ok h
    exact ⟨rfl, fun hne => absurd rfl hne⟩
  | input a =>
    obtain ⟨-, v, w, hv, rfl⟩ := inputTo_ok h
    obtain ⟨-, -, hrb, hrs⟩ := takeInput_frame hv
    exact ⟨hrs, fun hne => absurd hrb hne⟩
  | output a =>
    obtain ⟨-, rfl⟩ := outputOf_ok h
    exact ⟨rfl, fun hne => absurd rfl hne⟩
  | jumpIfTrue a b | jumpIfFalse a b =>
    obtain ⟨-, ⟨-, -, -, rfl⟩ | ⟨-, rfl⟩⟩ := jumpWhen_ok h <;> exact ⟨rfl, fun hne => absurd rfl hne⟩
  | adjustRelativeBase a =>
    obtain ⟨-, -, rfl⟩ := adjustBase_ok h
    exact ⟨rfl, fun _ => ⟨a, rfl⟩⟩
  | halt =>
    cases h
    exact ⟨rfl, fun hne => absurd rfl hne⟩

/-- The state `u` has the length that accesses at `xs`, all of which `s` can make, give its memory (R41). -/
def State.grewBy (s : State) (xs : List Nat) (u : State) : Prop :=
  (∀ x ∈ xs, s.addressable (x : Int)) ∧ u.mem.len = lengthAfter s.mem.len xs

theorem threeOperand_grewBy {op : AluOp} {a b : ReadOperand} {c : WriteTarget} {s u : State}
    (h : threeOperand op a b c s = .ok u) :
    s.grewBy (s.readAddresses a ++ s.readAddresses b ++ [s.writeAddress c]) u := by
  obtain ⟨ha, hb, hc, -, rfl⟩ := threeOperand_ok h
  refine ⟨fun x hx => ?_, rfl⟩
  rcases List.mem_append.mp hx with hx | hx
  · rcases List.mem_append.mp hx with hx | hx
    · exact readAddresses_addressable ha x hx
    · exact readAddresses_addressable hb x hx
  · obtain rfl := List.mem_singleton.mp hx
    exact writeAddress_addressable hc

theorem jumpWhen_grewBy {test : Int → Bool} {a b : ReadOperand} {s u : State} (h : jumpWhen test a b s = .ok u) :
    s.grewBy (s.readAddresses a ++ if test (s.valueOf a) = true then s.readAddresses b else []) u := by
  obtain ⟨ha, ⟨ht, hb, -, rfl⟩ | ⟨ht, rfl⟩⟩ := jumpWhen_ok h
  · refine ⟨fun x hx => ?_, by simp [ht]⟩
    rw [if_pos ht] at hx
    rcases List.mem_append.mp hx with hx | hx
    · exact readAddresses_addressable ha x hx
    · exact readAddresses_addressable hb x hx
  · simpa [State.grewBy, ht] using readAddresses_addressable ha

/-- The work of an instruction that completes made the accesses the rules list for it, and no other (R41, R103). -/
theorem workOf_grewBy {i : Instr} {s u : State} (h : workOf s i = .ok u) : s.grewBy (s.accesses i) u := by
  cases i with
  | add a b c | mul a b c | lessThan a b c | equals a b c => exact threeOperand_grewBy h
  | input a =>
    obtain ⟨ha, v, w, -, rfl⟩ := inputTo_ok h
    exact ⟨by simpa [State.accesses] using writeAddress_addressable ha, rfl⟩
  | output a =>
    obtain ⟨ha, rfl⟩ := outputOf_ok h
    exact ⟨readAddresses_addressable ha, rfl⟩
  | jumpIfTrue a b => simpa [State.accesses, condNonZero] using jumpWhen_grewBy h
  | jumpIfFalse a b => simpa [State.accesses, condZero] using jumpWhen_grewBy h
  | adjustRelativeBase a =>
    obtain ⟨ha, -, rfl⟩ := adjustBase_ok h
    exact ⟨readAddresses_addressable ha, rfl⟩
  | halt =>
    cases h
    exact ⟨by simp [State.accesses], rfl⟩

/-- Accesses made on a memory grown by others are accesses made after those. -/
theorem State.grewBy_grownFor {s u : State} {xs ys : List Nat} (hx : ∀ x ∈ xs, s.addressable (x : Int))
    (h : (s.setMem (s.mem.grownFor xs)).grewBy ys u) : s.grewBy (xs ++ ys) u := by
  obtain ⟨hy, hlen⟩ := h
  refine ⟨fun x hmem => ?_, by simpa [lengthAfter_append] using hlen⟩
  rcases List.mem_append.mp hmem with hmem | hmem
  · exact hx x hmem
  · exact (addressable_grownFor hx _).mp (hy x hmem)

/-- However a step answers, memory has the length some accesses gave it: those of the fetch and of the instruction when
it completes, none otherwise (R41, R101). -/
theorem step_grewBy {s t : State} (h : step s = .next t) : ∃ xs, s.grewBy xs t := by
  have unchanged {u : State} (hu : u.mem = s.mem) : ∃ xs, s.grewBy xs u := ⟨[], by simp, by rw [hu]; rfl⟩
  rcases step_next h with ⟨-, rfl⟩ | ⟨-, rfl⟩ | ⟨-, ⟨f, rfl⟩ | rfl | ⟨i, s1, hf, hdone⟩⟩
  · exact unchanged rfl
  · exact unchanged rfl
  · exact unchanged rfl
  · exact unchanged rfl
  · obtain ⟨hd, -, haddr, -, rfl⟩ := fetch_ok hf
    rcases hdone with ⟨-, rfl⟩ | ⟨-, u, hu, rfl⟩
    · exact ⟨_, haddr, rfl⟩
    · have hgrew := State.grewBy_grownFor haddr (workOf_grewBy hu)
      exact ⟨_, hgrew⟩

theorem State.grewBy.le {s u : State} {xs : List Nat} (h : s.grewBy xs u) : s.mem.len ≤ u.mem.len :=
  h.2 ▸ le_lengthAfter _ _

/-! The HALTED query. -/

theorem State.isHalted_iff {s : State} :
    s.isHalted = true ↔ s.pc < s.mem.len ∧ decodeWord (s.mem.read s.pc) = .ok .halt := by
  simp [State.isHalted, decodeWord_eq_halt_iff, and_assoc]

/-- Where a HALT can be fetched the query is already true: past the length of a canonical memory there is only 0, which
is no opcode (R44, R171). -/
theorem isHalted_of_fetch_halt {s s1 : State} (hm : s.mem.wf) (h : fetch s = .ok (.halt, s1)) : s.isHalted = true := by
  obtain ⟨hd, hdw, -, hi, -⟩ := fetch_ok h
  obtain rfl := Header.assemble_eq_halt_iff.mp hi.symm
  refine State.isHalted_iff.mpr ⟨?_, hdw⟩
  by_contra hlen
  rw [Memory.read_of_len_le hm (Nat.not_lt.mp hlen)] at hdw
  simp [decodeWord_eq_halt_iff] at hdw

theorem State.isHalted_grownFor {s : State} (h : s.isHalted = true) (xs : List Nat) :
    (s.setMem (s.mem.grownFor xs)).isHalted = true := by
  obtain ⟨hpc, hw⟩ := State.isHalted_iff.mp h
  exact State.isHalted_iff.mpr ⟨hpc.trans_le (le_lengthAfter _ _), hw⟩

/-! The invariant under each update of State. A Runnable machine may write memory and move its pc: the clauses that tie
pc and memory to the run state speak only of the other two. -/

namespace State.Inv

variable {s : State}

theorem inRange_valueOf (h : s.Inv) {o : ReadOperand} (ho : s.cfg.inRange o.raw = true) :
    s.cfg.inRange (s.valueOf o) = true := by
  unfold State.valueOf
  split
  · exact ho
  · exact Memory.inRange_read h.params h.cells _

theorem faultCause_of_runnable (h : s.Inv) (hr : s.runState = .runnable) : s.faultCause = .none := by
  by_contra hne
  cases hr.symm.trans (h.cause.mp hne)

theorem respond (h : s.Inv) (r : StepResponse) : (s.respond r).Inv := { h with }

theorem setProvider (h : s.Inv) (vs : List Int) (n : Nat) : (s.setProvider vs n).Inv := { h with }

theorem setIq (h : s.Inv) {q : List Int} (hq : ∀ v ∈ q, s.cfg.inRange v = true) : (s.setIq q).Inv :=
  { h with input := hq }

theorem setOq (h : s.Inv) {q : List Int} (hq : ∀ v ∈ q, s.cfg.inRange v = true) : (s.setOq q).Inv :=
  { h with output := hq }

theorem setRb (h : s.Inv) {v : Int} (hv : s.cfg.inRange v = true) : (s.setRb v).Inv := { h with base := hv }

theorem grownFor (h : s.Inv) (xs : List Nat) : (s.setMem (s.mem.grownFor xs)).Inv :=
  { h with
    memory := Memory.wf_grownFor h.memory xs
    halted := fun hr => State.isHalted_grownFor (h.halted hr) xs }

theorem raise (h : s.Inv) (f : Trap) : (s.raise f).Inv :=
  { h with
    cause := ⟨fun _ => rfl, fun _ => by cases f <;> exact Cause.noConfusion⟩
    faultPc := fun _ => rfl
    halted := fun hr => by cases hr }

theorem moveToHalted (h : s.Inv) (hr : s.runState = .runnable) (hw : s.isHalted = true) :
    (s.setRunState .halted).Inv :=
  { h with
    cause := by simp [h.faultCause_of_runnable hr]
    faultPc := fun hf => by cases hf
    halted := fun _ => hw }

theorem setPc (h : s.Inv) (hr : s.runState = .runnable) (n : Nat) : (s.setPc n).Inv :=
  { h with
    faultPc := fun hf => by cases hr.symm.trans hf
    halted := fun hf => by cases hr.symm.trans hf }

theorem store (h : s.Inv) (hr : s.runState = .runnable) {a : Nat} (ha : a < s.mem.len) {v : Int}
    (hv : s.cfg.inRange v = true) : (s.setMem (s.mem.store a v)).Inv :=
  { h with
    memory := Memory.wf_store h.memory ha v
    cells := fun c hc => by
      rcases mem_store hc with ⟨rfl, -⟩ | hc
      · exact hv
      · exact h.cells c hc
    halted := fun hf => by cases hr.symm.trans hf }

/-- Writing a word at an address the accesses cover (R43). -/
theorem storeGrown (h : s.Inv) (hr : s.runState = .runnable) {xs : List Nat} {a : Nat}
    (ha : a < lengthAfter s.mem.len xs) {v : Int} (hv : s.cfg.inRange v = true) :
    (s.setMem ((s.mem.grownFor xs).store a v)).Inv :=
  (h.grownFor xs).store hr ha hv

theorem takeInput (h : s.Inv) {u : State} {v : Int} (e : Machine.takeInput s = .ok (v, u)) :
    u.Inv ∧ u.cfg.inRange v = true := by
  rcases takeInput_ok e with ⟨rest, hq, rfl⟩ | ⟨-, -, -, hv, rfl⟩
  · have hall : ∀ w ∈ v :: rest, s.cfg.inRange w = true := hq ▸ h.input
    exact ⟨h.setIq fun w hw => hall w (List.mem_cons_of_mem _ hw), hall v (List.mem_cons_self ..)⟩
  · exact ⟨h.setProvider _ _, hv⟩

theorem threeOperand (h : s.Inv) (hr : s.runState = .runnable) {op : AluOp} {a b : ReadOperand} {c : WriteTarget}
    {u : State} (e : Machine.threeOperand op a b c s = .ok u) : u.Inv := by
  obtain ⟨-, -, -, halu, rfl⟩ := threeOperand_ok e
  refine State.Inv.setPc (h.storeGrown hr ?_ (alu_ok_inRange h.params halu)) hr _
  rw [threeOperandAddresses, lengthAfter_append]
  exact lt_lengthAfter_self _ _

theorem jumpWhen (h : s.Inv) (hr : s.runState = .runnable) {test : Int → Bool} {a b : ReadOperand} {u : State}
    (e : Machine.jumpWhen test a b s = .ok u) : u.Inv := by
  obtain ⟨-, ⟨-, -, -, rfl⟩ | ⟨-, rfl⟩⟩ := jumpWhen_ok e <;> exact (h.grownFor _).setPc hr _

/-- The work of an instruction whose parameters are words keeps the invariant (R33). -/
theorem workOf (h : s.Inv) (hr : s.runState = .runnable) {i : Instr} (hi : i.wf s.cfg = true) {u : State}
    (e : Machine.workOf s i = .ok u) : u.Inv := by
  cases i with
  | add a b c | mul a b c | lessThan a b c | equals a b c => exact h.threeOperand hr e
  | jumpIfTrue a b | jumpIfFalse a b => exact h.jumpWhen hr e
  | input a =>
    obtain ⟨-, v, w, hv, rfl⟩ := inputTo_ok e
    obtain ⟨-, hmem, -, hrs⟩ := takeInput_frame hv
    obtain ⟨hw, hvw⟩ := h.takeInput hv
    have hwr : w.runState = .runnable := hrs.trans hr
    rw [← hmem]
    exact (hw.storeGrown hwr (lt_lengthAfter_self _ _) hvw).setPc hwr _
  | output a =>
    obtain ⟨-, rfl⟩ := outputOf_ok e
    have ha : s.cfg.inRange a.raw = true := by simpa [Instr.wf, Instr.params] using hi
    refine ((h.grownFor _).setOq fun v hv => ?_).setPc hr _
    rcases List.mem_append.mp hv with hv | hv
    · exact h.output v hv
    · obtain rfl := List.mem_singleton.mp hv
      exact h.inRange_valueOf ha
  | adjustRelativeBase a =>
    obtain ⟨-, hv, rfl⟩ := adjustBase_ok e
    exact ((h.grownFor _).setRb hv).setPc hr _
  | halt =>
    cases e
    exact h

/-- A fetch leaves the invariant, and the instruction it gives has words as its parameters (R75). -/
theorem fetch (h : s.Inv) {i : Instr} {s1 : State} (e : Machine.fetch s = .ok (i, s1)) :
    s1.Inv ∧ s1.runState = s.runState ∧ i.wf s1.cfg = true := by
  obtain ⟨hd, -, -, rfl, rfl⟩ := fetch_ok e
  refine ⟨h.grownFor _, rfl, hd.assemble_wf (inRange_zero h.params) fun v hv => ?_⟩
  obtain ⟨a, -, rfl⟩ := List.mem_map.mp hv
  exact Memory.inRange_read h.params h.cells a

/-- Every step keeps the invariant (R33): by the ways a step can answer. -/
theorem step (h : s.Inv) {t : State} (e : Machine.step s = .next t) : t.Inv := by
  rcases step_next e with ⟨-, rfl⟩ | ⟨-, rfl⟩ | ⟨hr, ⟨f, rfl⟩ | rfl | ⟨i, s1, hf, hdone⟩⟩
  · exact h.respond _
  · exact h.respond _
  · exact h.raise f
  · exact h.respond _
  · obtain ⟨h1, hr1, hi⟩ := h.fetch hf
    rcases hdone with ⟨rfl, rfl⟩ | ⟨-, u, hu, rfl⟩
    · obtain ⟨hd, -, -, -, rfl⟩ := fetch_ok hf
      have hw := State.isHalted_grownFor (isHalted_of_fetch_halt h.memory hf)
      exact (h1.moveToHalted (hr1.trans hr) (hw _)).respond _
    · exact (h1.workOf (hr1.trans hr) hi hu).respond _

/-- An accepted RESET gives the invariant, in whatever state the machine was (R210, R212). -/
theorem load {image input : List Int} (hp : s.cfg.wf) (himage : ∀ v ∈ image, s.cfg.inRange v = true)
    (hinput : ∀ v ∈ input, s.cfg.inRange v = true) : (s.load image input).Inv where
  params := hp
  memory := Memory.wf_ofImage image
  cells c hc := by
    obtain ⟨-, -, -, hv⟩ := mem_imageCells hc
    exact himage c.2 hv
  base := inRange_zero hp
  input := hinput
  output v hv := by cases hv
  cause := by simp
  faultPc hf := by cases hf
  halted hf := by cases hf

end State.Inv

theorem State.resetWith?_eq_some {s t : State} {image input : List Int} (h : s.resetWith? image input = some t) :
    (∀ v ∈ image, s.cfg.inRange v = true) ∧ (∀ v ∈ input, s.cfg.inRange v = true) ∧ t = s.load image input := by
  simp only [State.resetWith?, Option.ite_none_right_eq_some, Bool.and_eq_true, List.all_eq_true,
    Option.some.injEq] at h
  obtain ⟨⟨himage, hinput⟩, rfl⟩ := h
  exact ⟨himage, hinput, rfl⟩

/-! The obligations. -/

/-- Settles O51: `State.Inv.step` for the invariant, and the accesses of a step for the length. -/
theorem stepKeepsTheInvariant : Obligations.StepKeepsTheInvariant := by
  unfold Obligations.StepKeepsTheInvariant
  intro s t hs h
  obtain ⟨xs, hgrew⟩ := step_grewBy h
  exact ⟨hs.step h, hgrew.le⟩

/-- Settles O11: both lists of words have the same members, those that the reads give, and the same order. -/
theorem canonicalMemoriesAreEqualByReads : Obligations.CanonicalMemoriesAreEqualByReads := by
  unfold Obligations.CanonicalMemoriesAreEqualByReads
  intro m m' hm hm' hlen hread
  have hcells : m.cells = m'.cells := eq_of_mem_iff_of_pairwise hm.1 hm'.1 fun c => by
    rw [Memory.mem_cells_iff hm, Memory.mem_cells_iff hm', hread]
  cases m
  cases m'
  exact (Memory.mk.injEq ..).mpr ⟨hlen, hcells⟩

/-- Settles O12: the length after a step is the one after accesses that succeed. -/
theorem stepGrowsMemoryOnlyToCapacities : Obligations.StepGrowsMemoryOnlyToCapacities := by
  unfold Obligations.StepGrowsMemoryOnlyToCapacities
  intro s t h
  obtain ⟨xs, hgrew⟩ := step_grewBy h
  refine ⟨hgrew.le, ?_⟩
  obtain ⟨haddr, hlen⟩ := hgrew
  rw [hlen]
  refine (lengthAfter_eq_or_cap fun x hx => (haddr x hx).2).imp_right ?_
  rintro ⟨a, ha, e, hfits⟩
  exact ⟨a, ha, e, fun c hc => le_of_fits hfits hc⟩

/-- Settles O36, by the ends of an instruction: only its work can change the base, and no work changes RUN_STATE. -/
theorem onlyTheirInstructionsWriteBaseAndRunState : Obligations.OnlyTheirInstructionsWriteBaseAndRunState := by
  unfold Obligations.OnlyTheirInstructionsWriteBaseAndRunState
  intro i s t h
  rcases exec_next h with ⟨hi, rfl⟩ | ⟨-, u, hu, rfl⟩ | ⟨f, rfl, -⟩ | ⟨rfl, -⟩
  · exact ⟨fun hne => absurd rfl hne, fun _ _ => hi⟩
  · obtain ⟨hrs, hrb⟩ := workOf_frame hu
    exact ⟨hrb, fun hhalted hnot => absurd (hrs.symm.trans hhalted) hnot⟩
  · exact ⟨fun hne => absurd rfl hne, fun hhalted _ => by cases hhalted⟩
  · exact ⟨fun hne => absurd rfl hne, fun hhalted hnot => absurd hhalted hnot⟩

/-- Settles O46, by the ways a step can answer: only a completed HALT ends in Halted, and it was fetched at pc. -/
theorem onlyHaltWordMovesToHalted : Obligations.OnlyHaltWordMovesToHalted := by
  unfold Obligations.OnlyHaltWordMovesToHalted
  intro s t hm hnot h hhalted
  rcases step_next h with ⟨-, rfl⟩ | ⟨hr, -⟩ | ⟨hr, ⟨f, rfl⟩ | rfl | ⟨i, s1, hf, hdone⟩⟩
  · exact absurd hhalted hnot
  · exact absurd hr hnot
  · cases hhalted
  · exact absurd hhalted hnot
  · rcases hdone with ⟨rfl, rfl⟩ | ⟨-, u, hu, rfl⟩
    · exact ⟨hr, isHalted_of_fetch_halt hm hf, rfl⟩
    · obtain ⟨hd, -, -, -, rfl⟩ := fetch_ok hf
      exact absurd ((workOf_frame hu).1.symm.trans hhalted) hnot

/-- Settles O53: what RESET accepts are words, and the loaded state holds nothing else. -/
theorem acceptedResetHasTheInvariant : Obligations.AcceptedResetHasTheInvariant := by
  unfold Obligations.AcceptedResetHasTheInvariant
  intro s t image input hp h
  obtain ⟨himage, hinput, rfl⟩ := State.resetWith?_eq_some h
  exact State.Inv.load hp himage hinput

/-- Settles O52: the reset state is what RESET with an empty image and input makes of it. -/
theorem resetStateHasTheInvariant : Obligations.ResetStateHasTheInvariant := by
  unfold Obligations.ResetStateHasTheInvariant
  exact acceptedResetHasTheInvariant State.reset State.reset [] [] (by decide) rfl

end Sys2Proof.Machine
end

section
/-! Memory and the host's transactions (spec/20_memory.md): what growth and a list of accesses make of the length, what a
completed step accessed, and where a step can be refused; then the obligations of the family. -/

namespace Sys2Proof

/-- A decoded word's instruction is as long as the word and the parameters it calls for (R74). -/
theorem Header.assemble_length (hd : Header) (ps : List Int) : (hd.assemble ps).length = hd.paramCount + 1 := by
  rw [Instr.length, Header.assemble_params_length, Nat.add_comm]

end Sys2Proof

namespace Sys2Proof.Machine

/-! Capacities and growth. -/

theorem cap_eq_capacity (a : Nat) : ∃ n, cap a = 64 * 2 ^ n := capFrom_eq a Config.growthBase a

theorem cap_le_capacity_of_lt {a n : Nat} (h : a < 64 * 2 ^ n) : cap a ≤ 64 * 2 ^ n := capFrom_le_of_lt h

theorem fits_iff {memCap : Option Nat} {n : Nat} : fits memCap n = true ↔ ∀ c ∈ memCap, n ≤ c := by
  cases memCap <;> simp [fits]

@[simp] theorem Memory.length_contents (m : Memory) : m.contents.length = m.len := by simp [Memory.contents]

theorem Memory.getElem?_contents {m : Memory} {a : Nat} (h : a < m.len) : m.contents[a]? = some (m.read a) := by
  simp [Memory.contents, h]

/-- Past the length a canonical memory reads as 0, so a longer one with the same words ends in zeros (R41, R44). -/
theorem Memory.contents_longer {m : Memory} (h : m.wf) {n : Nat} (hn : m.len ≤ n) :
    ({ m with len := n } : Memory).contents = m.contents ++ List.replicate (n - m.len) 0 := by
  obtain ⟨k, rfl⟩ := Nat.exists_eq_add_of_le hn
  have hzeros : ((List.range k).map (m.len + ·)).map m.read = List.replicate k 0 :=
    List.eq_replicate_iff.mpr ⟨by simp, fun v hv => by
      obtain ⟨x, hx, rfl⟩ := List.mem_map.mp hv
      obtain ⟨j, -, rfl⟩ := List.mem_map.mp hx
      exact Memory.read_of_len_le h (Nat.le_add_right _ _)⟩
  calc ((List.range (m.len + k)).map m.read)
      = m.contents ++ ((List.range k).map (m.len + ·)).map m.read := by
        rw [List.range_add, List.map_append]; rfl
    _ = m.contents ++ List.replicate (m.len + k - m.len) 0 := by rw [hzeros, Nat.add_sub_cancel_left]

/-! The length after a list of accesses is the one after its largest address alone (R41). -/

theorem lengthAfter_of_forall_lt {len : Nat} {xs : List Nat} (h : ∀ x ∈ xs, x < len) : lengthAfter len xs = len := by
  induction xs with
  | nil => rfl
  | cons x xs ih =>
    rw [lengthAfter, if_pos (h x (List.mem_cons_self ..))]
    exact ih fun y hy => h y (List.mem_cons_of_mem _ hy)

/-- Capacities are spaced so that growing for a smaller address first makes no difference. -/
theorem lengthAfter_pair_of_le (len : Nat) {x top : Nat} (h : x ≤ top) :
    lengthAfter len [x, top] = lengthAfter len [top] := by
  by_cases hx : x < len
  · simp [lengthAfter, hx]
  · have hlen : ¬ top < len := by omega
    simp only [lengthAfter, hx, hlen, if_false]
    split
    case isTrue htop => exact Nat.le_antisymm (cap_le_cap (h.trans_lt (cap_gt top))) (cap_le_cap htop)
    case isFalse => rfl

theorem lengthAfter_append_singleton {len top : Nat} {xs : List Nat} (h : ∀ x ∈ xs, x ≤ top) :
    lengthAfter len (xs ++ [top]) = lengthAfter len [top] := by
  induction xs generalizing len with
  | nil => rfl
  | cons x xs ih =>
    calc lengthAfter len (x :: xs ++ [top])
        = lengthAfter len [x, top] := ih fun y hy => h y (List.mem_cons_of_mem _ hy)
      _ = lengthAfter len [top] := lengthAfter_pair_of_le len (h x (List.mem_cons_self ..))

/-- The accesses before the largest make no difference, and those after it find their address inside. -/
theorem lengthAfter_eq_of_largest {len top : Nat} {xs : List Nat} (hmem : top ∈ xs) (hle : ∀ x ∈ xs, x ≤ top) :
    lengthAfter len xs = lengthAfter len [top] := by
  obtain ⟨before, after, rfl⟩ := List.append_of_mem hmem
  have hbefore : lengthAfter len (before ++ [top]) = lengthAfter len [top] :=
    lengthAfter_append_singleton fun x hx => hle x (List.mem_append_left _ hx)
  have hafter : ∀ x ∈ after, x < lengthAfter len [top] := fun x hx =>
    (hle x (by simp [hx])).trans_lt (lt_lengthAfter_self len top)
  rw [List.append_cons, lengthAfter_append, hbefore, lengthAfter_of_forall_lt hafter]

/-! What a completed step accessed. -/

/-- The words at `pc` decode to one instruction at most: the one that a fetch gives (R75, R100). -/
theorem eq_of_decode_of_fetch {s s1 : State} {i j : Instr}
    (hdec : decode ((wordsFrom s.pc i.length).map s.mem.read) = .ok (i, [])) (hf : fetch s = .ok (j, s1)) : i = j := by
  obtain ⟨hd, hdw, -, rfl, -⟩ := fetch_ok hf
  rw [show i.length = i.params.length + 1 from Nat.add_comm .., wordsFrom_succ, List.map_cons, decode, hdw] at hdec
  dsimp only at hdec
  split at hdec
  case isTrue => cases hdec
  case isFalse hlong =>
    simp only [Except.ok.injEq, Prod.mk.injEq, List.drop_eq_nil_iff] at hdec
    obtain ⟨hi, hshort⟩ := hdec
    rw [List.take_of_length_le hshort] at hi
    have hcount : i.params.length = hd.paramCount := by
      simp only [List.length_map, wordsFrom, List.length_range] at hlong hshort
      omega
    rw [← hi, hcount]

/-- A step that completes leaves the length that the accesses of its fetch and then of its instruction give (R41,
R103). -/
theorem step_completed {s t : State} (hr : s.runState = .runnable) (h : step s = .next t)
    (hdone : t.response = .cont ∨ t.response = .halt) :
    ∃ i s1, fetch s = .ok (i, s1) ∧ s.grewBy (wordsFrom s.pc i.length ++ s.accesses i) t := by
  rcases step_next h with ⟨hr', -⟩ | ⟨hr', -⟩ | ⟨-, ⟨f, rfl⟩ | rfl | ⟨i, s1, hf, hend⟩⟩
  · cases hr.symm.trans hr'
  · cases hr.symm.trans hr'
  · simp at hdone
  · simp at hdone
  · obtain ⟨hd, -, haddr, hi, rfl⟩ := fetch_ok hf
    refine ⟨i, _, hf, ?_⟩
    rw [show i.length = hd.paramCount + 1 from hi ▸ hd.assemble_length _]
    rcases hend with ⟨rfl, rfl⟩ | ⟨-, u, hu, rfl⟩
    · exact State.grewBy_grownFor haddr ⟨by simp [State.accesses], rfl⟩
    · exact State.grewBy_grownFor (u := u) haddr (workOf_grewBy hu)

/-! Where a step can be refused. -/

/-- The work stops, if it does, by a fault. -/
def stopsOnlyByFault {α : Type} (x : Except Stop α) : Prop := ∀ e, x = .error e → ∃ f, e = .trap f

theorem stopsOnlyByFault.not_refused {α : Type} {x : Except Stop α} (hx : stopsOnlyByFault x) {r : Refusal} :
    x ≠ .error (.refuse r) := fun h => by
  obtain ⟨f, hf⟩ := hx _ h
  cases hf

theorem stopsOnlyByFault_ok {α : Type} (a : α) : stopsOnlyByFault (.ok a) := fun _ h => by cases h

theorem stopsOnlyByFault_trap {α : Type} (f : Trap) : stopsOnlyByFault (.error (.trap f) : Except Stop α) :=
  fun _ h => by cases h; exact ⟨f, rfl⟩

theorem stopsOnlyByFault_bind {α β : Type} {x : Except Stop α} {k : α → Except Stop β} (hx : stopsOnlyByFault x)
    (hk : ∀ a, stopsOnlyByFault (k a)) : stopsOnlyByFault (x >>= k) := by
  intro e h
  rcases bind_error h with h | ⟨a, -, h⟩
  · exact hx e h
  · exact hk a e h

theorem stopsOnlyByFault_ite {α : Type} {c : Prop} [Decidable c] {x y : Except Stop α} (hx : stopsOnlyByFault x)
    (hy : stopsOnlyByFault y) : stopsOnlyByFault (if c then x else y) := by
  split
  · exact hx
  · exact hy

theorem stopsOnlyByFault_access (a : Int) (s : State) : stopsOnlyByFault (access a s) := by
  intro e h
  rcases access_error h with ⟨-, rfl⟩ | ⟨-, -, -, rfl⟩ <;> exact ⟨_, rfl⟩

theorem stopsOnlyByFault_memWrite (a v : Int) (s : State) : stopsOnlyByFault (memWrite a v s) := by
  intro e h
  unfold memWrite at h
  split at h
  case h_1 ha =>
    cases h
    exact stopsOnlyByFault_access a s _ ha
  case h_2 => cases h

theorem stopsOnlyByFault_readOp (o : ReadOperand) (s : State) : stopsOnlyByFault (readOp o s) := by
  intro e h
  obtain ⟨a, -, ha⟩ := readOp_error h
  exact stopsOnlyByFault_access a s e ha

theorem stopsOnlyByFault_wAddr (c : WriteTarget) (s : State) : stopsOnlyByFault (wAddr c s) := fun e h =>
  stopsOnlyByFault_access _ s e (wAddr_error h)

theorem stopsOnlyByFault_alu (p : Params) (op : AluOp) (a b : Int) : stopsOnlyByFault (alu p op a b) := by
  intro e h
  obtain ⟨-, -, rfl⟩ := alu_error h
  exact ⟨_, rfl⟩

theorem stopsOnlyByFault_threeOperand (op : AluOp) (a b : ReadOperand) (c : WriteTarget) (s : State) :
    stopsOnlyByFault (threeOperand op a b c s) :=
  stopsOnlyByFault_bind (stopsOnlyByFault_readOp a s) fun _ =>
    stopsOnlyByFault_bind (stopsOnlyByFault_readOp b _) fun _ =>
      stopsOnlyByFault_bind (stopsOnlyByFault_wAddr c _) fun _ =>
        stopsOnlyByFault_bind (stopsOnlyByFault_alu _ op _ _) fun _ =>
          stopsOnlyByFault_bind (stopsOnlyByFault_memWrite _ _ _) fun _ => stopsOnlyByFault_ok _

theorem stopsOnlyByFault_jumpTo (b : ReadOperand) (s : State) : stopsOnlyByFault (jumpTo b s) :=
  stopsOnlyByFault_bind (stopsOnlyByFault_readOp b s) fun _ =>
    stopsOnlyByFault_ite (stopsOnlyByFault_trap _) (stopsOnlyByFault_ok _)

theorem stopsOnlyByFault_jumpWhen (test : Int → Bool) (a b : ReadOperand) (s : State) :
    stopsOnlyByFault (jumpWhen test a b s) :=
  stopsOnlyByFault_bind (stopsOnlyByFault_readOp a s) fun _ =>
    stopsOnlyByFault_ite (stopsOnlyByFault_jumpTo b _) (stopsOnlyByFault_ok _)

theorem stopsOnlyByFault_outputOf (a : ReadOperand) (s : State) : stopsOnlyByFault (outputOf a s) :=
  stopsOnlyByFault_bind (stopsOnlyByFault_readOp a s) fun _ => stopsOnlyByFault_ok _

theorem stopsOnlyByFault_adjustBase (a : ReadOperand) (s : State) : stopsOnlyByFault (adjustBase a s) :=
  stopsOnlyByFault_bind (stopsOnlyByFault_readOp a s) fun _ =>
    stopsOnlyByFault_bind (stopsOnlyByFault_alu _ _ _ _) fun _ => stopsOnlyByFault_ok _

/-- INPUT stops by a fault of its target, or as taking the input does (R103, R130). -/
theorem inputTo_error {a : WriteTarget} {s : State} {e : Stop} (h : inputTo a s = .error e) :
    (∃ f, e = .trap f) ∨ takeInput s = .error e := by
  rcases bind_error h with hw | ⟨⟨d, s1⟩, hw, -⟩
  · exact .inl (stopsOnlyByFault_wAddr a s e hw)
  · have ha := (wAddr_ok hw).1
    cases ht : takeInput s with
    | error e' =>
      cases (inputTo_of_stop ha ht).symm.trans h
      exact .inr rfl
    | ok r => cases (inputTo_of ha ht).symm.trans h

/-- Only the provider's answer in hand can fail to be a word: a free one is made one (log entry 4). -/
theorem State.exists_answer_of_not_inRange {s : State} (h : s.cfg.inRange s.nextAnswer = false) :
    ∃ v rest, s.answers = v :: rest ∧ s.cfg.inRange v = false := by
  unfold State.nextAnswer at h
  split at h
  case h_1 v rest ha => exact ⟨v, rest, ha, h⟩
  case h_2 => cases (inRange_toWord _ _).symm.trans h

/-- The machine would ask the provider, and the first answer in hand is not a word (R61). -/
def State.holdsBadAnswer (s : State) : Prop :=
  s.iq = [] ∧ s.cfg.policy = .provider ∧ ∃ v rest, s.answers = v :: rest ∧ s.cfg.inRange v = false

theorem takeInput_refused {s : State} {r : Refusal} (h : takeInput s = .error (.refuse r)) :
    r = .providerAnswerNotWord ∧ s.holdsBadAnswer := by
  obtain ⟨hq, ⟨-, he⟩ | ⟨hp, hr, he⟩⟩ := takeInput_error h
  · cases he
  · cases he
    exact ⟨rfl, hq, hp, State.exists_answer_of_not_inRange hr⟩

/-- The work of an instruction is refused only where INPUT takes the provider's answer (R61). -/
theorem workOf_refused {s : State} {i : Instr} {r : Refusal} (h : workOf s i = .error (.refuse r)) :
    r = .providerAnswerNotWord ∧ s.holdsBadAnswer := by
  cases i with
  | add a b c | mul a b c | lessThan a b c | equals a b c =>
    exact absurd h (stopsOnlyByFault_threeOperand _ a b c s).not_refused
  | input a =>
    rcases inputTo_error h with ⟨f, hf⟩ | ht
    · cases hf
    · exact takeInput_refused ht
  | output a => exact absurd h (stopsOnlyByFault_outputOf a s).not_refused
  | jumpIfTrue a b | jumpIfFalse a b => exact absurd h (stopsOnlyByFault_jumpWhen _ a b s).not_refused
  | adjustRelativeBase a => exact absurd h (stopsOnlyByFault_adjustBase a s).not_refused
  | halt => cases h

theorem State.conclude_refused {s : State} {x : Except Stop State} {r : Refusal} (h : s.conclude x = .refused r) :
    x = .error (.refuse r) := by
  cases x with
  | ok u => cases h
  | error e => cases e <;> cases h; rfl

theorem exec_refused {s : State} {i : Instr} {r : Refusal} (h : exec i s = .refused r) :
    r = .providerAnswerNotWord ∧ s.holdsBadAnswer := by
  rw [exec_eq] at h
  split at h
  · cases h
  · exact workOf_refused (State.conclude_refused h)

/-- A step is refused only where its instruction is: the fetch, which changes no queue, stops only by a fault. -/
theorem step_refused {s : State} {r : Refusal} (h : step s = .refused r) :
    s.runState = .runnable ∧ r = .providerAnswerNotWord ∧ s.holdsBadAnswer := by
  unfold step at h
  split at h
  case h_1 => cases h
  case h_2 => cases h
  case h_3 hr =>
    refine ⟨hr, ?_⟩
    split at h
    case h_1 e hf =>
      obtain ⟨f, rfl⟩ := fetch_error hf
      cases h
    case h_2 i s1 hf =>
      obtain ⟨hd, -, -, -, rfl⟩ := fetch_ok hf
      cases hx : exec i (s.setMem (s.mem.grownFor (wordsFrom s.pc (hd.paramCount + 1)))) with
      | next t => rw [hx] at h; cases h
      | fault f => cases f
      | refused r' =>
        rw [hx] at h
        cases h
        exact (exec_refused hx :)

theorem takeInput_of_bad_answer {s : State} (h : s.holdsBadAnswer) :
    takeInput s = .error (.refuse .providerAnswerNotWord) := by
  obtain ⟨hq, hp, v, rest, hans, hv⟩ := h
  simp [takeInput, hq, hp, provide, State.nextAnswer, hans, hv]

/-! Host transactions. -/

theorem State.isHalted_iff_word {s : State} :
    s.isHalted = true ↔ s.pc < s.mem.len ∧ 0 ≤ s.mem.read s.pc ∧ s.mem.read s.pc % 100 = 99 := by
  rw [State.isHalted_iff, decodeWord_eq_halt_iff]
  omega

theorem State.ioPush?_of_inRange {s : State} {v : Int} (h : s.cfg.inRange v = true) :
    s.ioPush? v = some (s.setIq (s.iq ++ [v])) := by
  simp [State.ioPush?, h]

theorem State.ioPush?_of_not_inRange {s : State} {v : Int} (h : s.cfg.inRange v = false) : s.ioPush? v = none := by
  simp [State.ioPush?, h]

theorem State.ioPop?_of_nil {s : State} (h : s.oq = []) : s.ioPop? = none := by simp [State.ioPop?, h]

theorem State.ioPop?_of_cons {s : State} {v : Int} {rest : List Int} (h : s.oq = v :: rest) :
    s.ioPop? = some (v, s.setOq rest) := by
  simp [State.ioPop?, h]

/-! The obligations. -/

/-- Settles O8: a capacity above an address is never below the address's own. -/
theorem capIsLeastCapacityAbove : Obligations.CapIsLeastCapacityAbove := by
  unfold Obligations.CapIsLeastCapacityAbove
  exact fun a => ⟨cap_eq_capacity a, cap_gt a, fun _ h => cap_le_capacity_of_lt h⟩

/-- Settles O9, by the two ways growth can answer: growth changes the length alone, and what lies past the old one
reads as 0. -/
theorem growthAppendsZerosToCapacity : Obligations.GrowthAppendsZerosToCapacity := by
  unfold Obligations.GrowthAppendsZerosToCapacity
  intro ceiling m a hm
  refine ⟨fun ha => ?_, fun ha hfits => ?_, fun ha hpast => ?_⟩
  · rw [Memory.grow?_of_fits (.inl ha), lengthAfter_of_lt ha]
  · have hlen : m.len ≤ cap a := ha.trans (cap_gt a).le
    refine ⟨{ m with len := cap a }, ?_, rfl, Memory.contents_longer hm hlen⟩
    rw [Memory.grow?_of_fits (.inr (fits_iff.mpr hfits)), lengthAfter, if_neg (Nat.not_lt.mpr ha)]
    rfl
  · obtain ⟨c, hc, hlt⟩ := hpast
    refine Memory.grow?_eq_none.mpr ⟨ha, Bool.eq_false_iff.mpr fun hfits => ?_⟩
    exact absurd (le_of_fits hfits hc) (Nat.not_le.mpr hlt)

/-- Settles O10: a write is a growth, which changes no word, and then a store. -/
theorem memWriteChangesOneWord : Obligations.MemWriteChangesOneWord := by
  unfold Obligations.MemWriteChangesOneWord
  intro s t a v h
  obtain ⟨haddr, rfl⟩ := memWrite_ok h
  exact ⟨haddr.1, fun x => Memory.read_store _ _ _ _, lt_lengthAfter_self _ _, le_lengthAfter _ _, rfl⟩

/-- Settles O13: the length after a list of accesses depends on the largest alone, and a step that completes made the
accesses of its fetch and of its instruction. -/
theorem lengthAfterAccessesIsCapOfLargest : Obligations.LengthAfterAccessesIsCapOfLargest := by
  unfold Obligations.LengthAfterAccessesIsCapOfLargest
  refine ⟨fun s t a h => ?_, fun len addrs top hmem hle => lengthAfter_eq_of_largest hmem hle,
    fun s t i top hr hdec h hdone hmem hle => ?_⟩
  · obtain ⟨-, rfl⟩ := access_ok h
    rfl
  · obtain ⟨j, s1, hf, -, hlen⟩ := step_completed hr h hdone
    obtain rfl := eq_of_decode_of_fetch hdec hf
    exact hlen.trans (lengthAfter_eq_of_largest hmem hle)

/-- Settles O47: a step has no fault of the model's, and is refused only where the provider's answer is. -/
theorem stepIsRefusedOnlyForAnswerThatIsNoWord : Obligations.StepIsRefusedOnlyForAnswerThatIsNoWord := by
  unfold Obligations.StepIsRefusedOnlyForAnswerThatIsNoWord
  intro s
  cases h : step s with
  | next t => exact .inl ⟨t, rfl⟩
  | fault f => cases f
  | refused r =>
    obtain ⟨hr, rfl, hbad⟩ := step_refused h
    exact .inr ⟨rfl, hr, hbad⟩

/-- Settles O21: the target is checked, and then taking the input is refused. -/
theorem inputRefusesAnswerThatIsNoWord : Obligations.InputRefusesAnswerThatIsNoWord := by
  unfold Obligations.InputRefusesAnswerThatIsNoWord
  intro s a v rest ha hq hp hans hv
  have hwork : workOf s (.input a) = .error (.refuse .providerAnswerNotWord) :=
    inputTo_of_stop ha (takeInput_of_bad_answer ⟨hq, hp, v, rest, hans, hv⟩)
  rw [exec_eq, if_neg Instr.noConfusion, hwork]
  rfl

/-- Settles O55, by the cases of IO_PUSH and IO_POP. -/
theorem hostQueueTransactionsAreFifo : Obligations.HostQueueTransactionsAreFifo := by
  unfold Obligations.HostQueueTransactionsAreFifo
  refine fun s v => ⟨fun h => ?_, fun h => ?_, fun h => ?_, fun rest h => ?_, rfl, rfl⟩
  · rw [serve, State.ioPush?_of_inRange h]
  · rw [serve, State.ioPush?_of_not_inRange h]
  · rw [serve, State.ioPop?_of_nil h]
  · rw [serve, State.ioPop?_of_cons h]

/-- Settles O56: a snapshot is the contents of memory, and the HALTED query looks at the word at pc. -/
theorem hostQueriesChangeNothing : Obligations.HostQueriesChangeNothing := by
  unfold Obligations.HostQueriesChangeNothing
  intro s
  exact ⟨⟨s.mem.contents, rfl, s.mem.length_contents, fun _ => Memory.getElem?_contents⟩, rfl,
    s.isHalted, rfl, State.isHalted_iff_word⟩

end Sys2Proof.Machine
end

section
/-! The encoding (spec/30_encoding.md): an instruction has the header its word decodes to, and a word that is not negative
is judged by its opcode and by the digits of the opcode's parameters alone, in order; then the family's obligations. -/

namespace Sys2Proof

/-! Encoding and decoding back (R87). -/

/-- The header that an instruction's canonical word decodes to: its opcode and its modes. -/
def Instr.header : Instr → Header
  | .add a b c => .add a.mode b.mode c.mode
  | .mul a b c => .mul a.mode b.mode c.mode
  | .input a => .input a.mode
  | .output a => .output a.mode
  | .jumpIfTrue a b => .jumpIfTrue a.mode b.mode
  | .jumpIfFalse a b => .jumpIfFalse a.mode b.mode
  | .lessThan a b c => .lessThan a.mode b.mode c.mode
  | .equals a b c => .equals a.mode b.mode c.mode
  | .adjustRelativeBase a => .adjustRelativeBase a.mode
  | .halt => .halt

@[simp] theorem Instr.header_paramCount (i : Instr) : i.header.paramCount = i.params.length := by
  cases i <;> rfl

@[simp] theorem Instr.header_assemble (i : Instr) : i.header.assemble i.params = i := by
  cases i <;> rfl

theorem Instr.opcode_lt (i : Instr) : i.opcode < 100 := by
  cases i <;> simp [Instr.opcode]

theorem Instr.modeDigits_lt (i : Instr) : i.modeDigits.1 < 3 ∧ i.modeDigits.2.1 < 3 ∧ i.modeDigits.2.2 < 3 := by
  cases i <;> simp [Instr.modeDigits, ReadMode.digit_lt, WriteMode.digit_lt]

/-- Every canonical word lies between 0 and 22299. -/
theorem Instr.headWord_bounds (i : Instr) : 0 ≤ i.headWord ∧ i.headWord ≤ 22299 := by
  obtain ⟨h1, h2, h3⟩ := i.modeDigits_lt
  obtain ⟨hlow, hhigh, -⟩ := Laws.WordShape.head_bounds _ _ _ _ i.opcode_lt h1 h2 h3
  exact ⟨hlow, hhigh⟩

/-- The fields of a canonical word are the opcode and the mode digits it was made of (R70, R87). -/
theorem Instr.digits_headWord (i : Instr) :
    i.headWord.toNat % 100 = i.opcode ∧ dec 2 i.headWord.toNat = i.modeDigits.1 ∧
      dec 3 i.headWord.toNat = i.modeDigits.2.1 ∧ dec 4 i.headWord.toNat = i.modeDigits.2.2 := by
  obtain ⟨h1, h2, h3⟩ := i.modeDigits_lt
  exact digits_of_fields i.opcode_lt (by omega) (by omega) (by omega)

theorem decodeWord_of_nonneg {w : Int} (h : 0 ≤ w) : decodeWord w = decodeDigits w.toNat :=
  if_neg (Int.not_lt.mpr h)

theorem decodeWord_of_neg {w : Int} (h : w < 0) : decodeWord w = .error (.unknownOpcode w) := if_pos h

theorem decodeWord_headWord (i : Instr) : decodeWord i.headWord = .ok i.header := by
  obtain ⟨hop, h1, h2, h3⟩ := i.digits_headWord
  rw [decodeWord_of_nonneg i.headWord_bounds.1, decodeDigits, hop]
  cases i with
  | add | mul | lessThan | equals =>
    simp only [Instr.opcode, Instr.modeDigits] at h1 h2 h3 ⊢
    simp [threeModes, h1, h2, h3, Instr.header]
  | jumpIfTrue | jumpIfFalse =>
    simp only [Instr.opcode, Instr.modeDigits] at h1 h2 ⊢
    simp [twoModes, h1, h2, Instr.header]
  | output | adjustRelativeBase =>
    simp only [Instr.opcode, Instr.modeDigits] at h1 ⊢
    simp [oneReadMode, h1, Instr.header]
  | input =>
    simp only [Instr.opcode, Instr.modeDigits] at h1 ⊢
    simp [oneWriteMode, h1, Instr.header]
  | halt => rfl

theorem inRange_of_small {p : Params} (hp : p.wf) {v : Int} (h0 : 0 ≤ v) (h : v < 2 ^ 63) : p.inRange v = true := by
  cases hb : p.wordBits with
  | none => simp [Params.inRange, hb]
  | some b =>
    have hbits : 64 ≤ b := hp.1 b (by simp [hb])
    have hpow : 2 ^ 63 ≤ 2 ^ (b - 1) := Nat.pow_le_pow_right (by decide) (by omega)
    simp only [Params.inRange, hb, Bool.and_eq_true, decide_eq_true_eq]
    omega

end Sys2Proof

namespace Sys2Proof.Machine

/-! The mode digits of a word, checked in parameter order (R74, R77, R83). -/

/-- The digits of all parameters below `i` are admitted in the word `n`, read with opcode `op`. -/
def admitsBelow (op n i : Nat) : Prop := ∀ j, 1 ≤ j → j < i → admitsDigit op j (dec (j + 1) n) = true

/-- Parameter `i` is the lowest one whose digit is not admitted. -/
def lowestIllegal (op n i : Nat) : Prop :=
  1 ≤ i ∧ admitsDigit op i (dec (i + 1) n) = false ∧ admitsBelow op n i

/-- The answer is right for the digits of `count` parameters: all are admitted, or it refuses the lowest one that is
not. -/
def answersDigits (op n count : Nat) : Except Reject Header → Prop
  | .ok _ => admitsBelow op n (count + 1)
  | .error r => ∃ i ≤ count, lowestIllegal op n i ∧ r = .invalidAddressMode i (dec (i + 1) n)

theorem admitsBelow_one (op n : Nat) : admitsBelow op n 1 := fun j h1 h => by omega

theorem admitsBelow_succ {op n i : Nat} (h : admitsBelow op n i) (hi : admitsDigit op i (dec (i + 1) n) = true) :
    admitsBelow op n (i + 1) := fun j h1 hj => by
  rcases Nat.lt_succ_iff_lt_or_eq.mp hj with hj | rfl
  · exact h j h1 hj
  · exact hi

theorem lowestIllegal_unique {op n i j : Nat} (hi : lowestIllegal op n i) (hj : lowestIllegal op n j) : i = j := by
  obtain ⟨hi1, hi2, hi3⟩ := hi
  obtain ⟨hj1, hj2, hj3⟩ := hj
  rcases Nat.lt_trichotomy i j with h | h | h
  · simp [hj3 i hi1 h] at hi2
  · exact h
  · simp [hi3 j hj1 h] at hj2

theorem not_lowestIllegal_of_admitsBelow {op n i k : Nat} (h : admitsBelow op n k) (hi : i < k) :
    ¬ lowestIllegal op n i := fun ⟨h1, h2, _⟩ => by simp [h i h1 hi] at h2

/-- A read operand admits the digits 0, 1 and 2. -/
theorem admitsDigit_read {op i d : Nat} (hr : isWriteTarget op i = false) : admitsDigit op i d = decide (d < 3) := by
  rw [Bool.eq_iff_iff]
  simp [admitsDigit, hr]
  omega

/-- A write target admits the digits 0 and 2. -/
theorem admitsDigit_write {op i d : Nat} (hw : isWriteTarget op i = true) :
    admitsDigit op i d = decide (d = 0 ∨ d = 2) := by
  rw [Bool.eq_iff_iff]
  simp [admitsDigit, hw]

section
variable {op n i : Nat} (h1 : 1 ≤ i) (hb : admitsBelow op n i)
include h1 hb

/-- Reading the mode of a read operand, the parameters below it being admitted: it is refused as the lowest illegal one,
or the parameters up to it are admitted. -/
theorem readModeOf_checked (hr : isWriteTarget op i = false) :
    (readModeOf i (dec (i + 1) n) = .error (.invalidAddressMode i (dec (i + 1) n)) ∧ lowestIllegal op n i) ∨
      ∃ m, readModeOf i (dec (i + 1) n) = .ok m ∧ admitsBelow op n (i + 1) := by
  cases hm : readModeOf i (dec (i + 1) n) with
  | error r =>
    obtain ⟨hd, rfl⟩ := readModeOf_error hm
    exact .inl ⟨rfl, h1, by rw [admitsDigit_read hr, decide_eq_false_iff_not]; omega, hb⟩
  | ok m =>
    have hd : dec (i + 1) n < 3 := readModeOf_ok hm ▸ m.digit_lt
    exact .inr ⟨m, rfl, admitsBelow_succ hb (by rw [admitsDigit_read hr, decide_eq_true hd])⟩

/-- Reading the mode of a write target, likewise. -/
theorem writeModeOf_checked (hw : isWriteTarget op i = true) :
    (writeModeOf i (dec (i + 1) n) = .error (.invalidAddressMode i (dec (i + 1) n)) ∧ lowestIllegal op n i) ∨
      ∃ m, writeModeOf i (dec (i + 1) n) = .ok m ∧ admitsBelow op n (i + 1) := by
  cases hm : writeModeOf i (dec (i + 1) n) with
  | error r =>
    obtain ⟨hd, rfl⟩ := writeModeOf_error hm
    exact .inl ⟨rfl, h1, by rw [admitsDigit_write hw, decide_eq_false_iff_not]; omega, hb⟩
  | ok m =>
    have hd : dec (i + 1) n = 0 ∨ dec (i + 1) n = 2 := by rw [writeModeOf_ok hm]; cases m <;> decide
    exact .inr ⟨m, rfl, admitsBelow_succ hb (by rw [admitsDigit_write hw, decide_eq_true hd])⟩

end

theorem threeModes_answersDigits {op n : Nat} {h : ReadMode → ReadMode → WriteMode → Header}
    (h1 : isWriteTarget op 1 = false) (h2 : isWriteTarget op 2 = false) (h3 : isWriteTarget op 3 = true) :
    answersDigits op n 3 (threeModes n h) := by
  rcases readModeOf_checked (by decide) (admitsBelow_one op n) h1 with ⟨e1, hlow⟩ | ⟨m1, e1, hb1⟩
  · rw [threeModes, e1]
    exact ⟨1, by decide, hlow, rfl⟩
  rcases readModeOf_checked (by decide) hb1 h2 with ⟨e2, hlow⟩ | ⟨m2, e2, hb2⟩
  · rw [threeModes, e1, e2]
    exact ⟨2, by decide, hlow, rfl⟩
  rcases writeModeOf_checked (by decide) hb2 h3 with ⟨e3, hlow⟩ | ⟨m3, e3, hb3⟩
  · rw [threeModes, e1, e2, e3]
    exact ⟨3, by decide, hlow, rfl⟩
  · rw [threeModes, e1, e2, e3]
    exact hb3

theorem twoModes_answersDigits {op n : Nat} {h : ReadMode → ReadMode → Header} (h1 : isWriteTarget op 1 = false)
    (h2 : isWriteTarget op 2 = false) : answersDigits op n 2 (twoModes n h) := by
  rcases readModeOf_checked (by decide) (admitsBelow_one op n) h1 with ⟨e1, hlow⟩ | ⟨m1, e1, hb1⟩
  · rw [twoModes, e1]
    exact ⟨1, by decide, hlow, rfl⟩
  rcases readModeOf_checked (by decide) hb1 h2 with ⟨e2, hlow⟩ | ⟨m2, e2, hb2⟩
  · rw [twoModes, e1, e2]
    exact ⟨2, by decide, hlow, rfl⟩
  · rw [twoModes, e1, e2]
    exact hb2

theorem oneReadMode_answersDigits {op n : Nat} {h : ReadMode → Header} (h1 : isWriteTarget op 1 = false) :
    answersDigits op n 1 (oneReadMode n h) := by
  rcases readModeOf_checked (by decide) (admitsBelow_one op n) h1 with ⟨e1, hlow⟩ | ⟨m1, e1, hb1⟩
  · rw [oneReadMode, e1]
    exact ⟨1, by decide, hlow, rfl⟩
  · rw [oneReadMode, e1]
    exact hb1

theorem oneWriteMode_answersDigits {op n : Nat} {h : WriteMode → Header} (h1 : isWriteTarget op 1 = true) :
    answersDigits op n 1 (oneWriteMode n h) := by
  rcases writeModeOf_checked (by decide) (admitsBelow_one op n) h1 with ⟨e1, hlow⟩ | ⟨m1, e1, hb1⟩
  · rw [oneWriteMode, e1]
    exact ⟨1, by decide, hlow, rfl⟩
  · rw [oneWriteMode, e1]
    exact hb1

/-! The decoder by opcode. -/

theorem paramCountOf_eq_none_iff {op : Nat} :
    paramCountOf op = none ↔ op ∉ [1, 2, 3, 4, 5, 6, 7, 8, 9, 99] := by
  unfold paramCountOf
  split
  case h_11 => simp_all
  all_goals simp

theorem decodeDigits_of_no_opcode {n : Nat} (h : paramCountOf (n % 100) = none) :
    decodeDigits n = .error (.unknownOpcode n) := by
  unfold decodeDigits
  split
  case h_11 => rfl
  all_goals
    next hop =>
      rw [hop] at h
      cases h

/-- A known opcode is judged by the digits of its parameters. -/
theorem decodeDigits_answersDigits {n count : Nat} (h : paramCountOf (n % 100) = some count) :
    answersDigits (n % 100) n count (decodeDigits n) := by
  unfold paramCountOf at h
  split at h
  case h_1 hop | h_2 hop | h_7 hop | h_8 hop =>
    cases h
    rw [decodeDigits, hop]
    exact threeModes_answersDigits rfl rfl rfl
  case h_5 hop | h_6 hop =>
    cases h
    rw [decodeDigits, hop]
    exact twoModes_answersDigits rfl rfl
  case h_4 hop | h_9 hop =>
    cases h
    rw [decodeDigits, hop]
    exact oneReadMode_answersDigits rfl
  case h_3 hop =>
    cases h
    rw [decodeDigits, hop]
    exact oneWriteMode_answersDigits rfl
  case h_10 hop =>
    cases h
    rw [decodeDigits, hop]
    exact admitsBelow_one 99 n
  case h_11 => cases h

/-- A decoded word's header has the opcode, the number of parameters and the modes that the word's digits give. -/
theorem decodeDigits_fields {n : Nat} {hd : Header} (ps : List Int) (e : decodeDigits n = .ok hd) :
    (hd.assemble ps).opcode = n % 100 ∧ paramCountOf (n % 100) = some hd.paramCount ∧
      (1 ≤ hd.paramCount → (hd.assemble ps).modeDigits.1 = dec 2 n) ∧
      (2 ≤ hd.paramCount → (hd.assemble ps).modeDigits.2.1 = dec 3 n) ∧
      (3 ≤ hd.paramCount → (hd.assemble ps).modeDigits.2.2 = dec 4 n) := by
  unfold decodeDigits at e
  split at e
  case h_1 hop | h_2 hop | h_7 hop | h_8 hop =>
    obtain ⟨m1, m2, m3, d1, d2, d3, rfl⟩ := threeModes_ok e
    rw [hop, d1, d2, d3]
    exact ⟨rfl, rfl, fun _ => rfl, fun _ => rfl, fun _ => rfl⟩
  case h_5 hop | h_6 hop =>
    obtain ⟨m1, m2, d1, d2, rfl⟩ := twoModes_ok e
    rw [hop, d1, d2]
    exact ⟨rfl, rfl, fun _ => rfl, fun _ => rfl, nofun⟩
  case h_4 hop | h_9 hop =>
    obtain ⟨m1, d1, rfl⟩ := oneReadMode_ok e
    rw [hop, d1]
    exact ⟨rfl, rfl, fun _ => rfl, nofun, nofun⟩
  case h_3 hop =>
    obtain ⟨m1, d1, rfl⟩ := oneWriteMode_ok e
    rw [hop, d1]
    exact ⟨rfl, rfl, fun _ => rfl, nofun, nofun⟩
  case h_10 hop =>
    cases e
    rw [hop]
    exact ⟨rfl, rfl, nofun, nofun, nofun⟩
  case h_11 => cases e

/-- Words with the same opcode and the same digits of its parameters decode alike. -/
theorem decodeDigits_congr {n n' count : Nat} (hcount : paramCountOf (n % 100) = some count)
    (hop : n' % 100 = n % 100) (hdec : ∀ i, 1 ≤ i → i ≤ count → dec (i + 1) n' = dec (i + 1) n) :
    decodeDigits n' = decodeDigits n := by
  unfold paramCountOf at hcount
  split at hcount
  case h_1 h | h_2 h | h_7 h | h_8 h =>
    cases hcount
    simp only [decodeDigits, hop, h, threeModes, hdec 1 (by decide) (by decide), hdec 2 (by decide) (by decide),
      hdec 3 (by decide) (by decide)]
  case h_5 h | h_6 h =>
    cases hcount
    simp only [decodeDigits, hop, h, twoModes, hdec 1 (by decide) (by decide), hdec 2 (by decide) (by decide)]
  case h_4 h | h_9 h =>
    cases hcount
    simp only [decodeDigits, hop, h, oneReadMode, hdec 1 (by decide) (by decide)]
  case h_3 h =>
    cases hcount
    simp only [decodeDigits, hop, h, oneWriteMode, hdec 1 (by decide) (by decide)]
  case h_10 h => simp only [decodeDigits, hop, h]
  case h_11 => cases hcount

/-- Dropping the digits from 10^k up leaves those below. -/
theorem dec_mod_pow {j k : Nat} (w : Nat) (h : j < k) : dec j (w % 10 ^ k) = dec j w := by
  have hk : 10 ^ k = 10 ^ j * 10 ^ (k - j) := by rw [← Nat.pow_add, Nat.add_sub_cancel' h.le]
  rw [dec, dec, hk, Nat.mod_mul_right_div_self, Nat.mod_mod_of_dvd _ (dvd_pow_self 10 (by omega))]

/-- EVERY WORD THE DECODER REFUSES FOR A DIGIT: it refuses the lowest illegal parameter, of those its opcode has. -/
theorem decodeDigits_eq_invalid_iff {n i m : Nat} : decodeDigits n = .error (.invalidAddressMode i m) ↔
    ∃ count, paramCountOf (n % 100) = some count ∧ i ≤ count ∧ m = dec (i + 1) n ∧ lowestIllegal (n % 100) n i := by
  cases hcount : paramCountOf (n % 100) with
  | none => simp [decodeDigits_of_no_opcode hcount]
  | some count =>
    have hanswer := decodeDigits_answersDigits hcount
    simp only [Option.some.injEq, exists_eq_left']
    cases hd : decodeDigits n with
    | ok h =>
      rw [hd] at hanswer
      refine iff_of_false nofun fun ⟨hi, _, hlow⟩ => ?_
      exact not_lowestIllegal_of_admitsBelow hanswer (Nat.lt_succ_of_le hi) hlow
    | error r =>
      rw [hd] at hanswer
      obtain ⟨j, hj, hlow, rfl⟩ := hanswer
      simp only [Except.error.injEq, Reject.invalidAddressMode.injEq]
      constructor
      · rintro ⟨rfl, rfl⟩
        exact ⟨hj, rfl, hlow⟩
      · rintro ⟨-, rfl, hi⟩
        obtain rfl := lowestIllegal_unique hlow hi
        exact ⟨rfl, rfl⟩

theorem decodeDigits_eq_unknown_iff {n : Nat} {v : Int} :
    decodeDigits n = .error (.unknownOpcode v) ↔ v = n ∧ paramCountOf (n % 100) = none := by
  cases hcount : paramCountOf (n % 100) with
  | none => simp [decodeDigits_of_no_opcode hcount, eq_comm]
  | some count =>
    have hanswer := decodeDigits_answersDigits hcount
    refine iff_of_false (fun h => ?_) nofun
    rw [h] at hanswer
    obtain ⟨_, _, _, h⟩ := hanswer
    cases h

/-! A fetched word that the decoder refuses (R100). -/

theorem State.tookFault_raise (s : State) (f : Trap) : s.tookFault (s.raise f) f.cause f.info :=
  ⟨rfl, rfl, rfl, rfl, rfl, rfl, rfl, rfl, rfl, rfl, rfl, rfl, rfl⟩

/-- The refused word's fault is raised in the state as it was before the fetch, whatever the parameter words are. -/
theorem step_of_reject {s : State} {r : Reject} (hr : s.runState = .runnable) (ha : s.addressable (s.pc : Int))
    (h : decodeWord (s.mem.read s.pc) = .error r) : step s = .next (s.raise (Trap.ofReject r)) := by
  have hf : fetch s = .error (.trap (Trap.ofReject r)) := by
    simp only [fetch, memRead_of_addressable ha, ok_bind, Int.toNat_natCast, decodeFetched, h, error_bind]
  simp only [step, hr, hf, State.stop]

/-! The obligations. -/

/-- Settles O1: the head word decodes to the instruction's header, which takes the instruction's own parameters. -/
theorem decodeReadsBackEveryEncoding : Obligations.DecodeReadsBackEveryEncoding := by
  unfold Obligations.DecodeReadsBackEveryEncoding
  intro i rest
  have hlong : ¬ (i.params ++ rest).length < i.params.length := by simp
  simp only [encode, List.cons_append, decode, decodeWord_headWord, Instr.header_paramCount, hlong, if_false,
    List.take_left', List.drop_left', Instr.header_assemble]

/-- Settles O2: the head word is small, and the other words are the instruction's parameters. -/
theorem encodedWordsAreWords : Obligations.EncodedWordsAreWords := by
  unfold Obligations.EncodedWordsAreWords
  intro p i hp hi w hw
  rcases List.mem_cons.mp hw with rfl | hw
  · obtain ⟨hlow, hhigh⟩ := i.headWord_bounds
    exact inRange_of_small hp hlow (by omega)
  · exact List.all_eq_true.mp hi w hw

/-- Settles O3, by the digits of a word that is not negative. -/
theorem decodedWordHasItsFields : Obligations.DecodedWordHasItsFields := by
  unfold Obligations.DecodedWordHasItsFields
  intro w h ps e
  by_cases hw : w < 0
  · cases (decodeWord_of_neg hw).symm.trans e
  · rw [decodeWord_of_nonneg (Int.not_lt.mp hw)] at e
    exact ⟨Int.not_lt.mp hw, decodeDigits_fields ps e⟩

/-- Settles O4: the digits the decoder looks at are among the low n + 2. -/
theorem unusedDigitsAreIgnored : Obligations.UnusedDigitsAreIgnored := by
  unfold Obligations.UnusedDigitsAreIgnored
  intro w n hn
  rw [decodeWord_of_nonneg (Int.natCast_nonneg w), decodeWord_of_nonneg (Int.natCast_nonneg _), Int.toNat_natCast,
    Int.toNat_natCast]
  have hop : w % 10 ^ (n + 2) % 100 = w % 100 := Nat.mod_mod_of_dvd w (Nat.pow_dvd_pow 10 (Nat.le_add_left 2 n))
  exact (decodeDigits_congr hn hop fun i _ hi => dec_mod_pow w (by omega)).symm

/-- Settles O5: a negative word is refused at once, any other exactly when no opcode has its low two digits. -/
theorem unknownOpcodesAreExactlyTheIllegalWords : Obligations.UnknownOpcodesAreExactlyTheIllegalWords := by
  unfold Obligations.UnknownOpcodesAreExactlyTheIllegalWords
  intro w v
  by_cases hw : w < 0
  · simp [decodeWord_of_neg hw, hw, eq_comm]
  · have h0 := Int.not_lt.mp hw
    rw [decodeWord_of_nonneg h0, decodeDigits_eq_unknown_iff, paramCountOf_eq_none_iff, Int.toNat_of_nonneg h0,
      or_iff_right hw]

/-- Settles O6, by the digits of a word that is not negative. -/
theorem lowestIllegalModeDigitIsReported : Obligations.LowestIllegalModeDigitIsReported := by
  unfold Obligations.LowestIllegalModeDigitIsReported
  intro w i m
  by_cases hw : w < 0
  · simp [decodeWord_of_neg hw, Int.not_le.mpr hw]
  · have h0 := Int.not_lt.mp hw
    rw [decodeWord_of_nonneg h0, decodeDigits_eq_invalid_iff]
    constructor
    · rintro ⟨n, hn, hi, rfl, h1, hillegal, hbelow⟩
      exact ⟨h0, n, hn, h1, hi, rfl, hillegal, hbelow⟩
    · rintro ⟨-, n, hn, h1, hi, rfl, hillegal, hbelow⟩
      exact ⟨n, hn, hi, rfl, h1, hillegal, hbelow⟩

/-- Settles O38: the decoder refuses the word by O5, and the step raises what it reports. -/
theorem unknownOpcodeStepFaults : Obligations.UnknownOpcodeStepFaults := by
  unfold Obligations.UnknownOpcodeStepFaults
  intro s hr ha hw
  have hrefused := (unknownOpcodesAreExactlyTheIllegalWords _ _).mpr ⟨rfl, hw⟩
  exact ⟨_, step_of_reject hr ha hrefused, s.tookFault_raise _⟩

/-- Settles O39: the decoder refuses the digit by O6, and the step raises what it reports. -/
theorem illegalModeStepFaults : Obligations.IllegalModeStepFaults := by
  unfold Obligations.IllegalModeStepFaults
  intro s n i hr ha h0 hn h1 hi hillegal hbelow
  have hrefused := (lowestIllegalModeDigitIsReported _ i _).mpr ⟨h0, n, hn, h1, hi, rfl, hillegal, hbelow⟩
  exact ⟨_, step_of_reject hr ha hrefused, s.tookFault_raise _⟩

/-- Settles O7, by evaluating the decoder on the twelve words. -/
theorem specDecodingExamplesDecode : Obligations.SpecDecodingExamplesDecode := by
  unfold Obligations.SpecDecodingExamplesDecode
  exact ⟨rfl, rfl, rfl, rfl, rfl, rfl, rfl, rfl, rfl, rfl, rfl, rfl⟩

end Sys2Proof.Machine
end

section
/-! The execution cycle (spec/40_execution_cycle.md). The work of an instruction makes all its accesses before it has
any effect, so it is their first fault, or else an effect that makes none (R103); a fetch is judged in the same way, and
a step is its fetch and then the work of its instruction. The obligations of the family follow. -/

namespace Sys2Proof.Machine

/-! The first fault of a list of accesses (R41, R42, R103). -/

theorem State.accessFault_eq_none_iff {s : State} {a : Int} : s.accessFault a = none ↔ s.addressable a := by
  unfold State.accessFault
  split_ifs with hneg haddr
  · exact iff_of_false nofun fun h => absurd hneg (Int.not_lt.mpr h.1)
  · exact iff_of_true rfl haddr
  · exact iff_of_false nofun haddr

theorem State.accessFault_of_past_ceiling {s : State} {a : Nat} (h : ¬ s.addressable (a : Int)) :
    s.accessFault a = some (.outOfMemory a) := by
  rw [State.accessFault, if_neg (Int.not_lt.mpr (Int.natCast_nonneg a)), if_neg h, Int.toNat_natCast]

theorem access_of_accessFault {s : State} {a : Int} {f : Trap} (h : s.accessFault a = some f) :
    access a s = .error (.trap f) := by
  unfold State.accessFault at h
  split_ifs at h with hneg haddr
  · cases h
    exact access_of_negative s hneg
  · cases h
    exact access_of_too_far (Int.not_lt.mp hneg) haddr

theorem State.firstFault_cons (s : State) (a : Int) (as : List Int) :
    s.firstFault (a :: as) = (s.accessFault a).or (s.firstFault as) := by
  rw [State.firstFault]
  cases s.accessFault a <;> rfl

theorem State.firstFault_singleton (s : State) (a : Int) : s.firstFault [a] = s.accessFault a := by
  rw [State.firstFault_cons, State.firstFault, Option.or_none]

theorem State.firstFault_append (s : State) (as bs : List Int) :
    s.firstFault (as ++ bs) = (s.firstFault as).or (s.firstFault bs) := by
  induction as with
  | nil => rfl
  | cons a as ih => rw [List.cons_append, State.firstFault_cons, ih, State.firstFault_cons, Option.or_assoc]

theorem State.firstFault_eq_none_iff {s : State} {as : List Int} :
    s.firstFault as = none ↔ ∀ a ∈ as, s.addressable a := by
  induction as with
  | nil => exact iff_of_true rfl nofun
  | cons a as ih =>
    rw [State.firstFault_cons, Option.or_eq_none_iff, State.accessFault_eq_none_iff, ih, List.forall_mem_cons]

theorem State.firstFault_congr {s t : State} (h : ∀ a, t.accessFault a = s.accessFault a) (as : List Int) :
    t.firstFault as = s.firstFault as := by
  induction as with
  | nil => rfl
  | cons a as ih => rw [State.firstFault_cons, h, ih, State.firstFault_cons]

/-- Accesses that succeed do not change which fault later ones take. -/
theorem State.firstFault_grownFor {s : State} {xs : List Nat} (hx : ∀ x ∈ xs, s.addressable (x : Int))
    (as : List Int) : (s.setMem (s.mem.grownFor xs)).firstFault as = s.firstFault as :=
  State.firstFault_congr (fun a => by simp only [State.accessFault, addressable_grownFor hx]) as

theorem State.readable_iff {s : State} {o : ReadOperand} : s.readable o ↔ ∀ a ∈ s.effective o, s.addressable a := by
  simp only [State.readable, State.effective, Option.mem_toList, Option.mem_def]

/-! Chains that begin with an access take the first fault of that access and of those after it. -/

theorem memRead_bind_of_firstFault {β : Type} {s : State} {a : Int} {as : List Int} {f : Trap}
    {k : Int × State → Except Stop β} (h : s.firstFault (a :: as) = some f)
    (hk : (s.setMem (s.mem.grownFor [a.toNat])).firstFault as = some f →
      k (s.mem.read a.toNat, s.setMem (s.mem.grownFor [a.toNat])) = .error (.trap f)) :
    (memRead a s >>= k) = .error (.trap f) := by
  rw [State.firstFault_cons, Option.or_eq_some_iff] at h
  rcases h with ha | ⟨ha, hrest⟩
  · rw [memRead_of_access_error (access_of_accessFault ha), error_bind]
  · have haddr := State.accessFault_eq_none_iff.mp ha
    have hcovered : ∀ x ∈ [a.toNat], s.addressable (x : Int) := by
      simpa [Int.toNat_of_nonneg haddr.1] using haddr
    rw [memRead_of_addressable haddr, ok_bind]
    exact hk (by rw [State.firstFault_grownFor hcovered, hrest])

theorem readOp_bind_of_firstFault {β : Type} {s : State} {o : ReadOperand} {as : List Int} {f : Trap}
    {k : Int × State → Except Stop β} (h : s.firstFault (s.effective o ++ as) = some f)
    (hk : (s.setMem (s.mem.grownFor (s.readAddresses o))).firstFault as = some f →
      k (s.valueOf o, s.setMem (s.mem.grownFor (s.readAddresses o))) = .error (.trap f)) :
    (readOp o s >>= k) = .error (.trap f) := by
  rw [State.firstFault_append, Option.or_eq_some_iff] at h
  rcases h with ho | ⟨ho, hrest⟩
  · unfold State.effective at ho
    cases haddr : o.address? s.rb with
    | none => simp [haddr, State.firstFault] at ho
    | some a =>
      rw [haddr, Option.toList_some, State.firstFault_singleton] at ho
      rw [readOp_of_access_error haddr (access_of_accessFault ho), error_bind]
  · have hread := State.readable_iff.mpr (State.firstFault_eq_none_iff.mp ho)
    rw [readOp_of_readable hread, ok_bind]
    exact hk (by rw [State.firstFault_grownFor (readAddresses_addressable hread), hrest])

/-! What an instruction does after its accesses, none of which has stopped it. Nothing here makes an access. -/

/-- The addresses whose accesses phases O and X of an instruction try, in order (R103): those of `State.accesses`,
before it is known that they are not negative. -/
def State.operandAddresses (s : State) : Instr → List Int
  | .add a b c => s.effective a ++ s.effective b ++ [c.address s.rb]
  | .mul a b c => s.effective a ++ s.effective b ++ [c.address s.rb]
  | .input a => [a.address s.rb]
  | .output a => s.effective a
  | .jumpIfTrue a b => s.effective a ++ if condNonZero (s.valueOf a) then s.effective b else []
  | .jumpIfFalse a b => s.effective a ++ if condZero (s.valueOf a) then s.effective b else []
  | .lessThan a b c => s.effective a ++ s.effective b ++ [c.address s.rb]
  | .equals a b c => s.effective a ++ s.effective b ++ [c.address s.rb]
  | .adjustRelativeBase a => s.effective a
  | .halt => []

/-- Compute, write, and go on (R120, R121, R150, R151). -/
def threeOperandEffect (op : AluOp) (a b : ReadOperand) (c : WriteTarget) (s : State) : Except Stop State :=
  (alu s.cfg op (s.valueOf a) (s.valueOf b)).map fun r =>
    (s.setMem ((s.mem.grownFor (threeOperandAddresses a b c s)).store (s.writeAddress c) r)).setPc (s.pc + 4)

/-- Take the input, write it, and go on (R130). -/
def inputEffect (a : WriteTarget) (s : State) : Except Stop State :=
  (takeInput s).map fun r =>
    (r.2.setMem ((s.mem.grownFor [s.writeAddress a]).store (s.writeAddress a) r.1)).setPc (s.pc + 2)

/-- Append the value to the output queue, and go on (R131). -/
def outputEffect (a : ReadOperand) (s : State) : Except Stop State :=
  .ok (((s.setMem (s.mem.grownFor (s.readAddresses a))).setOq (s.oq ++ [s.valueOf a])).setPc (s.pc + 2))

/-- Go on at the target when the jump is taken, or three words on (R140, R141, R142). -/
def jumpEffect (test : Int → Bool) (a b : ReadOperand) (s : State) : Except Stop State :=
  if test (s.valueOf a) then
    if s.valueOf b < 0 then .error (.trap (.negativeAddress (s.valueOf b)))
    else .ok ((s.setMem (s.mem.grownFor (s.readAddresses a ++ s.readAddresses b))).setPc (s.valueOf b).toNat)
  else .ok ((s.setMem (s.mem.grownFor (s.readAddresses a))).setPc (s.pc + 3))

/-- Move the relative base, and go on (R160). -/
def adjustEffect (a : ReadOperand) (s : State) : Except Stop State :=
  (inWordRange s.cfg (s.rb + s.valueOf a)).map fun r =>
    ((s.setMem (s.mem.grownFor (s.readAddresses a))).setRb r).setPc (s.pc + 2)

/-- The work of an instruction that is left when its accesses have succeeded. -/
def effectOf (s : State) : Instr → Except Stop State
  | .add a b c => threeOperandEffect .add a b c s
  | .mul a b c => threeOperandEffect .mul a b c s
  | .input a => inputEffect a s
  | .output a => outputEffect a s
  | .jumpIfTrue a b => jumpEffect condNonZero a b s
  | .jumpIfFalse a b => jumpEffect condZero a b s
  | .lessThan a b c => threeOperandEffect .lt a b c s
  | .equals a b c => threeOperandEffect .eq a b c s
  | .adjustRelativeBase a => adjustEffect a s
  | .halt => .ok s

/-! The work of an instruction whose accesses fail is the first of their faults. -/

theorem wAddr_bind_of_firstFault {β : Type} {s : State} {c : WriteTarget} {f : Trap}
    {k : Int × State → Except Stop β} (h : s.firstFault [c.address s.rb] = some f) :
    (wAddr c s >>= k) = .error (.trap f) := by
  rw [State.firstFault_singleton] at h
  rw [wAddr_of_access_error (access_of_accessFault h), error_bind]

/-- OUTPUT, ADJUST-RELATIVE-BASE and a taken jump begin with a read, whose own fault is the first. -/
theorem readOp_bind_of_own_fault {β : Type} {s : State} {o : ReadOperand} {f : Trap}
    {k : Int × State → Except Stop β} (h : s.firstFault (s.effective o) = some f) :
    (readOp o s >>= k) = .error (.trap f) :=
  readOp_bind_of_firstFault (as := []) (by rwa [List.append_nil]) nofun

theorem threeOperand_of_firstFault {op : AluOp} {a b : ReadOperand} {c : WriteTarget} {s : State} {f : Trap}
    (h : s.firstFault (s.effective a ++ s.effective b ++ [c.address s.rb]) = some f) :
    threeOperand op a b c s = .error (.trap f) := by
  rw [List.append_assoc] at h
  exact readOp_bind_of_firstFault h fun hbc => readOp_bind_of_firstFault hbc fun hc => wAddr_bind_of_firstFault hc

theorem jumpWhen_of_firstFault {test : Int → Bool} {a b : ReadOperand} {s : State} {f : Trap}
    (h : s.firstFault (s.effective a ++ if test (s.valueOf a) = true then s.effective b else []) = some f) :
    jumpWhen test a b s = .error (.trap f) := by
  refine readOp_bind_of_firstFault h fun hb => ?_
  cases ht : test (s.valueOf a) with
  | false => simp [ht, State.firstFault] at hb
  | true =>
    dsimp only
    rw [if_pos ht] at hb ⊢
    exact readOp_bind_of_own_fault hb

theorem workOf_of_firstFault {s : State} {i : Instr} {f : Trap} (h : s.firstFault (s.operandAddresses i) = some f) :
    workOf s i = .error (.trap f) := by
  cases i with
  | add a b c | mul a b c | lessThan a b c | equals a b c => exact threeOperand_of_firstFault h
  | input a => exact wAddr_bind_of_firstFault h
  | output a | adjustRelativeBase a => exact readOp_bind_of_own_fault h
  | jumpIfTrue a b | jumpIfFalse a b => exact jumpWhen_of_firstFault h
  | halt => cases h

/-! The work of an instruction whose accesses succeed is its effect. -/

theorem threeOperand_eq_effect {op : AluOp} {a b : ReadOperand} {c : WriteTarget} {s : State} (ha : s.readable a)
    (hb : s.readable b) (hc : s.writable c) : threeOperand op a b c s = threeOperandEffect op a b c s := by
  unfold threeOperandEffect
  cases hr : alu s.cfg op (s.valueOf a) (s.valueOf b) with
  | ok r =>
    obtain ⟨rfl, hrange⟩ := alu_ok hr
    exact threeOperand_of ha hb hc hrange
  | error e =>
    have h1 := readAddresses_addressable ha
    have h12 : ∀ x ∈ s.readAddresses a ++ s.readAddresses b, s.addressable (x : Int) :=
      List.forall_mem_append.mpr ⟨h1, readAddresses_addressable hb⟩
    have hb' := (readable_grownFor h1 b).mpr hb
    have hc' := (writable_grownFor h12 c).mpr hc
    simp only [threeOperand, readOp_of_readable ha, ok_bind, readOp_of_readable hb', State.setMem_mem,
      Memory.grownFor_grownFor, State.setMem_setMem, readAddresses_setMem, wAddr_of_writable hc', State.setMem_cfg,
      valueOf_grownFor, hr, error_bind, Except.map]

theorem inputTo_eq_effect {a : WriteTarget} {s : State} (ha : s.writable a) : inputTo a s = inputEffect a s := by
  unfold inputEffect
  cases hv : takeInput s with
  | ok r => exact inputTo_of ha hv
  | error e => exact inputTo_of_stop ha hv

theorem adjustBase_eq_effect {a : ReadOperand} {s : State} (ha : s.readable a) : adjustBase a s = adjustEffect a s := by
  unfold adjustEffect
  rw [adjustBase, readOp_of_readable ha, ok_bind]
  change (inWordRange s.cfg (s.rb + s.valueOf a) >>= _) = _
  cases inWordRange s.cfg (s.rb + s.valueOf a) <;> rfl

theorem jumpWhen_eq_effect {test : Int → Bool} {a b : ReadOperand} {s : State} (ha : s.readable a)
    (hb : test (s.valueOf a) = true → s.readable b) : jumpWhen test a b s = jumpEffect test a b s := by
  unfold jumpEffect
  split_ifs with ht hneg
  · have hb' := (readable_grownFor (readAddresses_addressable ha) b).mpr (hb ht)
    rw [jumpWhen, readOp_of_readable ha, ok_bind]
    dsimp only
    rw [if_pos ht, jumpTo, readOp_of_readable hb', ok_bind]
    exact if_pos hneg
  · exact jumpWhen_taken ha ht (hb ht) (Int.not_lt.mp hneg)
  · exact jumpWhen_not_taken ha (Bool.eq_false_iff.mpr ht)

theorem workOf_eq_effectOf {s : State} {i : Instr} (h : s.firstFault (s.operandAddresses i) = none) :
    workOf s i = effectOf s i := by
  rw [State.firstFault_eq_none_iff] at h
  cases i with
  | add a b c | mul a b c | lessThan a b c | equals a b c =>
    obtain ⟨hab, hc⟩ := List.forall_mem_append.mp h
    obtain ⟨ha, hb⟩ := List.forall_mem_append.mp hab
    exact threeOperand_eq_effect (State.readable_iff.mpr ha) (State.readable_iff.mpr hb)
      (hc _ (List.mem_singleton_self _))
  | input a => exact inputTo_eq_effect (h _ (List.mem_singleton_self _))
  | output a => exact outputOf_of (State.readable_iff.mpr h)
  | jumpIfTrue a b | jumpIfFalse a b =>
    obtain ⟨ha, hb⟩ := List.forall_mem_append.mp h
    refine jumpWhen_eq_effect (State.readable_iff.mpr ha) fun ht => State.readable_iff.mpr ?_
    rwa [if_pos ht] at hb
  | adjustRelativeBase a => exact adjustBase_eq_effect (State.readable_iff.mpr h)
  | halt => rfl

/-! An instruction whose work stops by a fault takes it (R182). -/

theorem State.nothingCommitted_raise (s : State) (f : Trap) : s.nothingCommitted (s.raise f) :=
  ⟨rfl, rfl, rfl, rfl, rfl, rfl, rfl, rfl⟩

theorem State.nothingCommitted_respond (s : State) (r : StepResponse) : s.nothingCommitted (s.respond r) :=
  ⟨rfl, rfl, rfl, rfl, rfl, rfl, rfl, rfl⟩

theorem State.sameRunState_respond (s : State) (r : StepResponse) : s.sameRunState (s.respond r) :=
  ⟨rfl, rfl, rfl, rfl⟩

theorem exec_of_not_halt {i : Instr} {s : State} (hi : i ≠ .halt) : exec i s = s.conclude (workOf s i) := by
  rw [exec_eq, if_neg hi]

theorem exec_tookFault_of_trap {i : Instr} {s : State} {f : Trap} (h : workOf s i = .error (.trap f)) :
    ∃ t, exec i s = .next t ∧ s.tookFault t f.cause f.info := by
  have hi : i ≠ .halt := fun hi => by
    rw [hi] at h
    cases h
  refine ⟨s.raise f, ?_, s.tookFault_raise f⟩
  rw [exec_of_not_halt hi, h]
  rfl

theorem exec_tookFault_of_firstFault {i : Instr} {s : State} {f : Trap}
    (h : s.firstFault (s.operandAddresses i) = some f) :
    ∃ t, exec i s = .next t ∧ s.tookFault t f.cause f.info :=
  exec_tookFault_of_trap (workOf_of_firstFault h)

theorem threeOperand_of_overflow {op : AluOp} {a b : ReadOperand} {c : WriteTarget} {s : State} (ha : s.readable a)
    (hb : s.readable b) (hc : s.writable c) (hop : op = .add ∨ op = .mul)
    (hr : s.cfg.inRange (aluExact op (s.valueOf a) (s.valueOf b)) = false) :
    threeOperand op a b c s = .error (.trap (.overflow (aluExact op (s.valueOf a) (s.valueOf b)))) := by
  rw [threeOperand_eq_effect ha hb hc, threeOperandEffect, alu_of_overflow hop hr]
  rfl

theorem adjustBase_of_overflow {a : ReadOperand} {s : State} (ha : s.readable a)
    (hr : s.cfg.inRange (s.rb + s.valueOf a) = false) :
    adjustBase a s = .error (.trap (.overflow (s.rb + s.valueOf a))) := by
  rw [adjustBase_eq_effect ha, adjustEffect, inWordRange, hr]
  rfl

/-- The four instructions of one shape differ in their ALU operation only (R120, R121, R150, R151). -/
theorem exec_eq_threeOperand {i : Instr} {a b : ReadOperand} {c : WriteTarget}
    (hi : i ∈ [Instr.add a b c, Instr.mul a b c, Instr.lessThan a b c, Instr.equals a b c]) (s : State) :
    ∃ op, exec i s = s.conclude (threeOperand op a b c s) := by
  simp only [List.mem_cons, List.not_mem_nil, or_false] at hi
  rcases hi with rfl | rfl | rfl | rfl
  · exact ⟨.add, rfl⟩
  · exact ⟨.mul, rfl⟩
  · exact ⟨.lt, rfl⟩
  · exact ⟨.eq, rfl⟩

/-- What INPUT moved on when it took its value: the queue or the provider, and nothing else (R130, R61). -/
theorem takeInput_moves {s u : State} {v : Int} (h : takeInput s = .ok (v, u)) :
    u.iq = s.iq.tail ∧ u.cfg = s.cfg ∧ u.rb = s.rb ∧ u.oq = s.oq ∧ s.sameRunState u ∧
      (s.iq ≠ [] → u.answers = s.answers ∧ u.provides = s.provides) ∧
      (s.iq = [] → u.answers = s.answers.tail ∧ u.provides = s.provides + 1) := by
  rcases takeInput_ok h with ⟨rest, hq, rfl⟩ | ⟨hq, -, -, -, rfl⟩
  · exact ⟨by rw [hq]; rfl, rfl, rfl, rfl, ⟨rfl, rfl, rfl, rfl⟩, fun _ => ⟨rfl, rfl⟩, by simp [hq]⟩
  · exact ⟨by rw [State.setProvider_iq, hq]; rfl, rfl, rfl, rfl, ⟨rfl, rfl, rfl, rfl⟩, fun hne => absurd hq hne,
      fun _ => ⟨rfl, rfl⟩⟩

/-! The fetch: it stops by the first fault of its phases, F, D and P (R100, R102, R103). -/

/-- The addresses of words, as the accesses to them see them. -/
def asAddresses (xs : List Nat) : List Int := xs.map fun x : Nat => (x : Int)

theorem asAddresses_cons (x : Nat) (xs : List Nat) : asAddresses (x :: xs) = (x : Int) :: asAddresses xs := rfl

theorem asAddresses_append (xs ys : List Nat) : asAddresses (xs ++ ys) = asAddresses xs ++ asAddresses ys :=
  List.map_append

/-- The fault of phases D and P, if any: the word at `pc` is refused, or a parameter word cannot be accessed. -/
def State.decodeFault (s : State) : Option Trap :=
  match decodeWord (s.mem.read s.pc) with
  | .error r => some (Trap.ofReject r)
  | .ok hd => s.firstFault (asAddresses (wordsFrom (s.pc + 1) hd.paramCount))

/-- The fault of a fetch, if any. -/
def State.fetchFault (s : State) : Option Trap := (s.accessFault s.pc).or s.decodeFault

theorem State.firstFault_asAddresses_eq_none_iff {s : State} {xs : List Nat} :
    s.firstFault (asAddresses xs) = none ↔ ∀ x ∈ xs, s.addressable (x : Int) := by
  rw [State.firstFault_eq_none_iff, asAddresses, List.forall_mem_map]

theorem fetchWords_of_firstFault {n a : Nat} {s : State} {f : Trap}
    (h : s.firstFault (asAddresses (wordsFrom a n)) = some f) : fetchWords n a s = .error (.trap f) := by
  induction n generalizing a s with
  | zero => cases h
  | succ n ih =>
    rw [wordsFrom_succ] at h
    refine memRead_bind_of_firstFault h fun hrest => ?_
    exact congrArg (· >>= _) (ih hrest)

theorem State.decodeFault_of_ok {s : State} {hd : Header} (h : decodeWord (s.mem.read s.pc) = .ok hd) :
    s.decodeFault = s.firstFault (asAddresses (wordsFrom (s.pc + 1) hd.paramCount)) := by
  rw [State.decodeFault, h]

theorem State.decodeFault_of_error {s : State} {r : Reject} (h : decodeWord (s.mem.read s.pc) = .error r) :
    s.decodeFault = some (Trap.ofReject r) := by
  rw [State.decodeFault, h]

/-- The whole fetch of a word that decodes is a list of accesses. -/
theorem State.fetchFault_of_decode {s : State} {hd : Header} (h : decodeWord (s.mem.read s.pc) = .ok hd) :
    s.fetchFault = s.firstFault (asAddresses (wordsFrom s.pc (hd.paramCount + 1))) := by
  rw [State.fetchFault, State.decodeFault_of_ok h, wordsFrom_succ, asAddresses_cons, State.firstFault_cons]

theorem fetch_of_fetchFault {s : State} {f : Trap} (h : s.fetchFault = some f) : fetch s = .error (.trap f) := by
  rw [State.fetchFault, Option.or_eq_some_iff] at h
  rcases h with h | ⟨hpc, h⟩
  · rw [fetch, memRead_of_access_error (access_of_accessFault h), error_bind]
  · have haddr := State.accessFault_eq_none_iff.mp hpc
    have hcovered : ∀ x ∈ [s.pc], s.addressable (x : Int) := by simpa using haddr
    rw [fetch, memRead_of_addressable haddr, ok_bind]
    simp only [Int.toNat_natCast, decodeFetched]
    cases hd : decodeWord (s.mem.read s.pc) with
    | error r =>
      rw [State.decodeFault_of_error hd, Option.some.injEq] at h
      subst h
      rfl
    | ok hd' =>
      rw [State.decodeFault_of_ok hd, ← State.firstFault_grownFor hcovered] at h
      simp only [ok_bind, fetchWords_of_firstFault h, error_bind]

/-- A fetch that stops has a fault, and it is the one it stops by. -/
theorem fetchFault_of_fetch_error {s : State} {e : Stop} (h : fetch s = .error e) :
    ∃ f, s.fetchFault = some f ∧ e = .trap f := by
  cases hf : s.fetchFault with
  | some f =>
    cases (fetch_of_fetchFault hf).symm.trans h
    exact ⟨f, rfl, rfl⟩
  | none =>
    cases hd : decodeWord (s.mem.read s.pc) with
    | error r => simp [State.fetchFault, State.decodeFault_of_error hd] at hf
    | ok hd' =>
      rw [State.fetchFault_of_decode hd, State.firstFault_asAddresses_eq_none_iff] at hf
      cases (fetch_of hd hf).symm.trans h

theorem wordsFrom_add (a m n : Nat) : wordsFrom a (m + n) = wordsFrom a m ++ wordsFrom (a + m) n := by
  simp [wordsFrom, List.range_add, Function.comp_def, Nat.add_assoc]

/-- The words at `pc` that decode to an instruction, and can be accessed, are what a fetch gives (R75, R102). -/
theorem fetch_of_decode {s : State} {i : Instr}
    (hdec : decode ((wordsFrom s.pc i.length).map s.mem.read) = .ok (i, []))
    (haddr : ∀ x ∈ wordsFrom s.pc i.length, s.addressable (x : Int)) :
    fetch s = .ok (i, s.setMem (s.mem.grownFor (wordsFrom s.pc i.length))) := by
  have hwords := hdec
  rw [show i.length = i.params.length + 1 from Nat.add_comm .., wordsFrom_succ, List.map_cons, decode] at hwords
  cases hd : decodeWord (s.mem.read s.pc) with
  | error r => simp [hd] at hwords
  | ok hd' =>
    simp only [hd] at hwords
    split at hwords
    case isTrue => cases hwords
    case isFalse =>
      have hi := congrArg Instr.length (Prod.mk.inj (Except.ok.inj hwords)).1
      have hlen : i.length = hd'.paramCount + 1 := hi.symm.trans (hd'.assemble_length _)
      rw [hlen] at haddr
      have hf := fetch_of hd haddr
      rw [← hlen, ← eq_of_decode_of_fetch hdec hf] at hf
      exact hf

/-! A step: only a response in a stopped machine (R107, R108); in a Runnable one the fetch, and then the work of the
instruction (R100, R101). -/

theorem step_of_halted {s : State} (hr : s.runState = .halted) : step s = .next (s.respond .stepAfterHalt) := by
  simp only [step, hr]

theorem step_of_faulted {s : State} (hr : s.runState = .faulted) :
    step s = .next (s.respond (.fault s.faultCause)) := by
  simp only [step, hr]

theorem step_of_fetch_error {s : State} {e : Stop} (hr : s.runState = .runnable) (h : fetch s = .error e) :
    step s = s.stop e := by
  simp only [step, hr, h]

theorem step_of_fetchFault {s : State} {f : Trap} (hr : s.runState = .runnable) (h : s.fetchFault = some f) :
    step s = .next (s.raise f) :=
  step_of_fetch_error hr (fetch_of_fetchFault h)

theorem step_of_fetch_ok {s s1 : State} {i : Instr} (hr : s.runState = .runnable) (h : fetch s = .ok (i, s1)) :
    step s = s.atomically (exec i s1) := by
  simp only [step, hr, h]

/-- What is undone of an instruction that does not complete is all that its fetch did, so it ends as if the fetch had
not grown memory. -/
theorem State.atomically_conclude (s : State) (m : Memory) (x : Except Stop State) :
    s.atomically ((s.setMem m).conclude x) = s.conclude x := by
  cases x with
  | ok u => exact congrArg Host.Outcome.next (if_pos (.inl rfl))
  | error e => cases e <;> rfl

theorem step_of_work {s s1 : State} {i : Instr} (hr : s.runState = .runnable) (h : fetch s = .ok (i, s1))
    (hi : i ≠ .halt) : step s = s.conclude (workOf s1 i) := by
  obtain ⟨hd, -, -, -, rfl⟩ := fetch_ok h
  rw [step_of_fetch_ok hr h, exec_of_not_halt hi, State.atomically_conclude]

theorem step_of_halt {s s1 : State} (hr : s.runState = .runnable) (h : fetch s = .ok (.halt, s1)) :
    step s = .next ((s1.setRunState .halted).respond .halt) := by
  rw [step_of_fetch_ok hr h]
  rfl

/-- EVERY WAY A STEP OF A RUNNABLE MACHINE CAN ANSWER, with what stopped it. -/
theorem step_next_of_runnable {s t : State} (hr : s.runState = .runnable) (h : step s = .next t) :
    (∃ f, s.fetchFault = some f ∧ t = s.raise f) ∨
      ∃ i s1, fetch s = .ok (i, s1) ∧
        ((i = .halt ∧ t = (s1.setRunState .halted).respond .halt) ∨
          (i ≠ .halt ∧ s.conclude (workOf s1 i) = .next t)) := by
  cases hf : fetch s with
  | error e =>
    obtain ⟨f, hfault, rfl⟩ := fetchFault_of_fetch_error hf
    rw [step_of_fetch_error hr hf] at h
    cases h
    exact .inl ⟨f, hfault, rfl⟩
  | ok r =>
    obtain ⟨i, s1⟩ := r
    refine .inr ⟨i, s1, rfl, ?_⟩
    by_cases hi : i = .halt
    · subst hi
      rw [step_of_halt hr hf] at h
      exact .inl ⟨rfl, (Host.Outcome.next.inj h).symm⟩
    · exact .inr ⟨hi, step_of_work hr hf hi ▸ h⟩

/-! The details that faults record fit their causes (R181). -/

theorem State.detailFits_of_accessFault {s : State} {a : Int} {f : Trap} (h : s.accessFault a = some f) :
    s.detailFits f.cause f.info := by
  unfold State.accessFault at h
  split_ifs at h with hneg haddr
  · cases h
    exact ⟨a, hneg, rfl⟩
  · cases h
    have ha := Int.not_lt.mp hneg
    simp only [State.addressable, ha, true_and, not_or, Nat.not_lt, fits_iff, not_forall, Nat.not_le] at haddr
    obtain ⟨hlen, c, hc, hlt⟩ := haddr
    exact ⟨a.toNat, hlen, ⟨c, hc, hlt⟩, rfl⟩

theorem State.detailFits_of_firstFault {s : State} {as : List Int} {f : Trap} (h : s.firstFault as = some f) :
    s.detailFits f.cause f.info := by
  induction as with
  | nil => cases h
  | cons a as ih =>
    rw [State.firstFault_cons, Option.or_eq_some_iff] at h
    rcases h with h | ⟨-, h⟩
    · exact State.detailFits_of_accessFault h
    · exact ih h

theorem State.detailFits_of_reject {s : State} {r : Reject} (h : decodeWord (s.mem.read s.pc) = .error r) :
    s.detailFits (Trap.ofReject r).cause (Trap.ofReject r).info := by
  cases r with
  | unknownOpcode w =>
    obtain ⟨rfl, -⟩ := (unknownOpcodesAreExactlyTheIllegalWords _ _).mp h
    rfl
  | invalidAddressMode i m =>
    obtain ⟨-, n, -, h1, -, rfl, hillegal, -⟩ := (lowestIllegalModeDigitIsReported _ _ _).mp h
    exact ⟨i, h1, rfl, hillegal⟩

theorem State.detailFits_of_fetchFault {s : State} {f : Trap} (h : s.fetchFault = some f) :
    s.detailFits f.cause f.info := by
  rw [State.fetchFault, Option.or_eq_some_iff] at h
  rcases h with h | ⟨-, h⟩
  · exact State.detailFits_of_accessFault h
  · cases hd : decodeWord (s.mem.read s.pc) with
    | error r =>
      rw [State.decodeFault_of_error hd, Option.some.injEq] at h
      exact h ▸ State.detailFits_of_reject hd
    | ok hd' => exact State.detailFits_of_firstFault (State.decodeFault_of_ok hd ▸ h)

/-- The grown memory of a fetch is no shorter, so what does not fit it does not fit the memory of before. -/
theorem State.detailFits_of_grownFor {s : State} {xs : List Nat} {c : Cause} {d : FaultInfo}
    (h : (s.setMem (s.mem.grownFor xs)).detailFits c d) : s.detailFits c d := by
  cases c with
  | outOfMemory =>
    obtain ⟨a, hlen, hceiling, hd⟩ := h
    exact ⟨a, (le_lengthAfter _ _).trans hlen, hceiling, hd⟩
  | none | unknownOpcode | invalidAddressMode | negativeAddress | overflow => exact h

theorem inWordRange_error {p : Params} {r : Int} {e : Stop} (h : inWordRange p r = .error e) :
    p.inRange r = false ∧ e = .trap (.overflow r) := by
  unfold inWordRange at h
  split_ifs at h with hr
  exact ⟨Bool.eq_false_iff.mpr hr, (Except.error.inj h).symm⟩

theorem map_eq_error {α β : Type} {x : Except Stop α} {g : α → β} {e : Stop} (h : x.map g = .error e) :
    x = .error e := by
  cases x with
  | error e' => exact congrArg Except.error (Except.error.inj h)
  | ok a => cases h

theorem threeOperandEffect_error {op : AluOp} {a b : ReadOperand} {c : WriteTarget} {s : State} {e : Stop}
    (h : threeOperandEffect op a b c s = .error e) : ∃ f, e = .trap f ∧ s.detailFits f.cause f.info := by
  obtain ⟨-, hr, rfl⟩ := alu_error (map_eq_error h)
  exact ⟨_, rfl, _, hr, rfl⟩

/-- An effect stops by a fault that is not an access's, or as taking the input does. -/
theorem effectOf_error {s : State} {i : Instr} {e : Stop} (h : effectOf s i = .error e) :
    (∃ f, e = .trap f ∧ s.detailFits f.cause f.info) ∨ takeInput s = .error e := by
  cases i with
  | add a b c | mul a b c | lessThan a b c | equals a b c => exact .inl (threeOperandEffect_error h)
  | input a => exact .inr (map_eq_error h)
  | jumpIfTrue a b | jumpIfFalse a b =>
    simp only [effectOf, jumpEffect] at h
    split_ifs at h with ht hneg
    cases h
    exact .inl ⟨_, rfl, _, hneg, rfl⟩
  | adjustRelativeBase a =>
    obtain ⟨hr, rfl⟩ := inWordRange_error (map_eq_error h)
    exact .inl ⟨_, rfl, _, hr, rfl⟩
  | output a | halt => cases h

theorem workOf_error {s : State} {i : Instr} {e : Stop} (h : workOf s i = .error e) :
    (∃ f, e = .trap f ∧ s.detailFits f.cause f.info) ∨ takeInput s = .error e := by
  cases hf : s.firstFault (s.operandAddresses i) with
  | some f =>
    cases (workOf_of_firstFault hf).symm.trans h
    exact .inl ⟨f, rfl, State.detailFits_of_firstFault hf⟩
  | none => exact effectOf_error (workOf_eq_effectOf hf ▸ h)

theorem workOf_trap {s : State} {i : Instr} {f : Trap} (h : workOf s i = .error (.trap f)) :
    s.detailFits f.cause f.info := by
  rcases workOf_error h with ⟨f', hf', hfits⟩ | hinput
  · cases hf'
    exact hfits
  · obtain ⟨-, ⟨-, he⟩ | ⟨-, -, he⟩⟩ := takeInput_error hinput <;> cases he

theorem workOf_emptyQueue {s : State} {i : Instr} (h : workOf s i = .error .emptyQueue) :
    s.iq = [] ∧ s.cfg.policy = .fault := by
  rcases workOf_error h with ⟨f, hf, -⟩ | hinput
  · cases hf
  · obtain ⟨hq, ⟨hp, -⟩ | ⟨-, -, he⟩⟩ := takeInput_error hinput
    · exact ⟨hq, hp⟩
    · cases he

/-- A step that leaves a Runnable machine Faulted raised a fault whose detail fits its cause. -/
theorem step_raised {s t : State} (hr : s.runState = .runnable) (h : step s = .next t) (hft : t.runState = .faulted) :
    ∃ f, t = s.raise f ∧ s.detailFits f.cause f.info := by
  rcases step_next_of_runnable hr h with ⟨f, hfault, rfl⟩ | ⟨i, s1, hfetch, ⟨-, rfl⟩ | ⟨-, hend⟩⟩
  · exact ⟨f, rfl, State.detailFits_of_fetchFault hfault⟩
  · cases hft
  · obtain ⟨hd, -, -, -, rfl⟩ := fetch_ok hfetch
    rcases State.conclude_next hend with ⟨u, hu, rfl⟩ | ⟨f, hwork, rfl⟩ | ⟨-, rfl⟩
    · have hu' : u.runState = .runnable := (workOf_frame hu).1.trans hr
      cases hu'.symm.trans hft
    · exact ⟨f, rfl, State.detailFits_of_grownFor (workOf_trap hwork)⟩
    · cases hr.symm.trans hft

/-! What a step does with the host's answers (R61, R109). -/

/-- The work was not refused, and the counter of PROVIDE requests, `count` before it, is as it was. -/
def makesNoRequest (count : Nat) : Except Stop State → Prop
  | .ok u => u.provides = count
  | .error e => ∀ r, e ≠ .refuse r

theorem State.firstFault_setProvider (s : State) (vs : List Int) (n : Nat) (as : List Int) :
    (s.setProvider vs n).firstFault as = s.firstFault as :=
  State.firstFault_congr (s := s) (t := s.setProvider vs n) (fun _ => rfl) as

theorem State.operandAddresses_setProvider (s : State) (vs : List Int) (n : Nat) (i : Instr) :
    (s.setProvider vs n).operandAddresses i = s.operandAddresses i := by
  cases i <;> rfl

theorem threeOperandEffect_setProvider (op : AluOp) (a b : ReadOperand) (c : WriteTarget) (s : State) (vs : List Int)
    (n : Nat) : threeOperandEffect op a b c (s.setProvider vs n) =
      (threeOperandEffect op a b c s).map (·.setProvider vs n) := by
  change (alu s.cfg op (s.valueOf a) (s.valueOf b)).map _ = ((alu s.cfg op (s.valueOf a) (s.valueOf b)).map _).map _
  cases alu s.cfg op (s.valueOf a) (s.valueOf b) <;> rfl

theorem adjustEffect_setProvider (a : ReadOperand) (s : State) (vs : List Int) (n : Nat) :
    adjustEffect a (s.setProvider vs n) = (adjustEffect a s).map (·.setProvider vs n) := by
  change (inWordRange s.cfg (s.rb + s.valueOf a)).map _ = ((inWordRange s.cfg (s.rb + s.valueOf a)).map _).map _
  cases inWordRange s.cfg (s.rb + s.valueOf a) <;> rfl

theorem jumpEffect_setProvider (test : Int → Bool) (a b : ReadOperand) (s : State) (vs : List Int) (n : Nat) :
    jumpEffect test a b (s.setProvider vs n) = (jumpEffect test a b s).map (·.setProvider vs n) := by
  change (if test (s.valueOf a) = true then if s.valueOf b < 0 then _ else _ else _) = _
  rw [jumpEffect]
  split_ifs <;> rfl

/-- INPUT looks at the answers only where it asks for one, and then it counts the request or is refused. -/
theorem inputEffect_setProvider {a : WriteTarget} {s : State} (h : makesNoRequest s.provides (inputEffect a s))
    (vs : List Int) (n : Nat) : inputEffect a (s.setProvider vs n) = (inputEffect a s).map (·.setProvider vs n) := by
  unfold inputEffect takeInput at h ⊢
  rw [State.setProvider_iq, State.setProvider_cfg]
  cases hq : s.iq with
  | cons v rest => rfl
  | nil =>
    cases hp : s.cfg.policy with
    | fault => rfl
    | provider =>
      simp only [hq, hp, provide] at h
      split_ifs at h
      · exact absurd h (Nat.succ_ne_self _)
      · exact absurd rfl (h _)

/-- Work that makes no PROVIDE request does not look at the answers: no access does, and of the effects only INPUT's. -/
theorem workOf_setProvider {i : Instr} {s : State} (h : makesNoRequest s.provides (workOf s i)) (vs : List Int)
    (n : Nat) : workOf (s.setProvider vs n) i = (workOf s i).map (·.setProvider vs n) := by
  have hfault : (s.setProvider vs n).firstFault ((s.setProvider vs n).operandAddresses i) =
      s.firstFault (s.operandAddresses i) := by
    rw [State.operandAddresses_setProvider, State.firstFault_setProvider]
  cases hf : s.firstFault (s.operandAddresses i) with
  | some f =>
    rw [workOf_of_firstFault hf, workOf_of_firstFault (hfault.trans hf)]
    rfl
  | none =>
    rw [workOf_eq_effectOf hf] at h ⊢
    rw [workOf_eq_effectOf (hfault.trans hf)]
    cases i with
    | add a b c | mul a b c | lessThan a b c | equals a b c => exact threeOperandEffect_setProvider _ a b c s vs n
    | input a => exact inputEffect_setProvider h vs n
    | jumpIfTrue a b | jumpIfFalse a b => exact jumpEffect_setProvider _ a b s vs n
    | adjustRelativeBase a => exact adjustEffect_setProvider a s vs n
    | output a | halt => rfl

theorem State.fetchFault_setProvider (s : State) (vs : List Int) (n : Nat) :
    (s.setProvider vs n).fetchFault = s.fetchFault := by
  have hdecode : (s.setProvider vs n).decodeFault = s.decodeFault := by
    unfold State.decodeFault
    simp only [State.firstFault_setProvider, State.setProvider_mem, State.setProvider_pc]
  rw [State.fetchFault, hdecode]
  rfl

theorem fetch_setProvider_of_ok {s s1 : State} {i : Instr} (h : fetch s = .ok (i, s1)) (vs : List Int) (n : Nat) :
    fetch (s.setProvider vs n) = .ok (i, s1.setProvider vs n) := by
  obtain ⟨hd, hdw, haddr, rfl, rfl⟩ := fetch_ok h
  exact fetch_of (s := s.setProvider vs n) hdw haddr

theorem makesNoRequest_of_conclude {s t : State} {x : Except Stop State} (h : s.conclude x = .next t)
    (hcount : t.provides = s.provides) : makesNoRequest s.provides x := by
  rcases State.conclude_next h with ⟨u, rfl, rfl⟩ | ⟨f, rfl, -⟩ | ⟨rfl, -⟩
  · exact hcount
  · exact nofun
  · exact nofun

theorem State.conclude_setProvider {s t : State} {x : Except Stop State} (h : s.conclude x = .next t) (vs : List Int)
    (n : Nat) : (s.setProvider vs n).conclude (x.map (·.setProvider vs n)) = .next (t.setProvider vs n) := by
  rcases State.conclude_next h with ⟨u, rfl, rfl⟩ | ⟨f, rfl, rfl⟩ | ⟨rfl, rfl⟩ <;> rfl

/-- A step of a Runnable machine that counts no request answers the same with other answers in hand. -/
theorem step_setProvider {s t : State} (hr : s.runState = .runnable) (h : step s = .next t)
    (hcount : t.provides = s.provides) (vs : List Int) (n : Nat) :
    step (s.setProvider vs n) = .next (t.setProvider vs n) := by
  have hr' : (s.setProvider vs n).runState = .runnable := hr
  rcases step_next_of_runnable hr h with ⟨f, hfault, rfl⟩ | ⟨i, s1, hfetch, ⟨rfl, rfl⟩ | ⟨hi, hend⟩⟩
  · exact step_of_fetchFault hr' ((s.fetchFault_setProvider vs n).trans hfault)
  · exact step_of_halt hr' (fetch_setProvider_of_ok hfetch vs n)
  · rw [step_of_work hr' (fetch_setProvider_of_ok hfetch vs n) hi]
    obtain ⟨hd, -, -, -, rfl⟩ := fetch_ok hfetch
    have hnone := makesNoRequest_of_conclude hend hcount
    rw [workOf_setProvider (s := s.setMem (s.mem.grownFor _)) hnone]
    exact State.conclude_setProvider hend vs n

/-- With a word in the queue, or under the policy FAULT, the work of an instruction counts no request (R130). -/
theorem workOf_provides {i : Instr} {s u : State} (hs : s.iq ≠ [] ∨ s.cfg.policy = .fault) (h : workOf s i = .ok u) :
    u.provides = s.provides := by
  cases i with
  | add a b c | mul a b c | lessThan a b c | equals a b c =>
    obtain ⟨-, -, -, -, rfl⟩ := threeOperand_ok h
    rfl
  | input a =>
    obtain ⟨-, v, w, hv, rfl⟩ := inputTo_ok h
    rcases takeInput_ok hv with ⟨rest, -, rfl⟩ | ⟨hq, hp, -⟩
    · rfl
    · simp [hq, hp] at hs
  | output a =>
    obtain ⟨-, rfl⟩ := outputOf_ok h
    rfl
  | jumpIfTrue a b | jumpIfFalse a b => obtain ⟨-, ⟨-, -, -, rfl⟩ | ⟨-, rfl⟩⟩ := jumpWhen_ok h <;> rfl
  | adjustRelativeBase a =>
    obtain ⟨-, -, rfl⟩ := adjustBase_ok h
    rfl
  | halt =>
    cases h
    rfl

theorem step_provides {s t : State} (hs : s.iq ≠ [] ∨ s.cfg.policy = .fault) (h : step s = .next t) :
    t.provides = s.provides := by
  rcases step_next h with ⟨-, rfl⟩ | ⟨-, rfl⟩ | ⟨-, ⟨f, rfl⟩ | rfl | ⟨i, s1, hfetch, hdone⟩⟩
  · rfl
  · rfl
  · rfl
  · rfl
  · obtain ⟨hd, -, -, -, rfl⟩ := fetch_ok hfetch
    rcases hdone with ⟨-, rfl⟩ | ⟨-, u, hu, rfl⟩
    · rfl
    · exact workOf_provides (s := s.setMem (s.mem.grownFor _)) (u := u) hs hu

/-! Runs (R110, R111). -/

/-- What the outcome of a step says about the machine it leaves (R106). -/
def outcomeFits (t : State) : StepResponse → Prop
  | .cont => t.runState = .runnable
  | .emptyQueue => t.runState = .runnable
  | .halt => t.runState = .halted
  | .fault c => t.runState = .faulted ∧ t.faultCause = c
  | .stepAfterHalt => False
  | .idle => False

theorem step_outcomeFits {s t : State} (hr : s.runState = .runnable) (h : step s = .next t) :
    outcomeFits t t.response := by
  rcases step_next h with ⟨hr', -⟩ | ⟨hr', -⟩ | ⟨-, ⟨f, rfl⟩ | rfl | ⟨i, s1, hfetch, hdone⟩⟩
  · cases hr.symm.trans hr'
  · cases hr.symm.trans hr'
  · exact ⟨rfl, rfl⟩
  · exact hr
  · obtain ⟨hd, -, -, -, rfl⟩ := fetch_ok hfetch
    rcases hdone with ⟨-, rfl⟩ | ⟨-, u, hu, rfl⟩
    · exact rfl
    · exact (workOf_frame hu).1.trans hr

theorem outcomeFits.runnable {t : State} {r : StepResponse} (h : outcomeFits t r) (hgo : r.goesOn = true) :
    t.runState = .runnable := by
  cases r with
  | cont | emptyQueue => exact h
  | halt | fault | stepAfterHalt | idle => cases hgo

theorem runWith_without_steps {script : List (List Request)} {s t : State} (h : runWith script s = some ([], t)) :
    t = s := by
  cases script with
  | nil =>
    cases h
    rfl
  | cons qs rest =>
    obtain ⟨_, _, _, -, -, -, hne⟩ := runWith_cons.mp h
    cases hne

/-- A Runnable machine whose run has gone on up to its last step made that step Runnable. -/
theorem runWith_outcomeFits {script : List (List Request)} {s t : State} {rs : List StepResponse} {r : StepResponse}
    (hr : s.runState = .runnable) (hgo : ∀ x ∈ rs, x.goesOn = true) (h : runWith script s = some (rs ++ [r], t)) :
    outcomeFits t r := by
  induction script generalizing s rs with
  | nil => simp [runWith] at h
  | cons qs rest ih =>
    obtain ⟨u, v, rs', hbetween, hstep, hrest, hrs⟩ := runWith_cons.mp h
    obtain ⟨iq, oq, rfl⟩ := serveBetween_some hbetween
    have hfits := step_outcomeFits (s := (s.setIq iq).setOq oq) hr hstep
    cases rs with
    | nil =>
      obtain ⟨rfl, rfl⟩ := List.cons.inj hrs
      obtain rfl := runWith_without_steps hrest
      exact hfits
    | cons x xs =>
      obtain ⟨rfl, rfl⟩ := List.cons.inj hrs
      obtain ⟨hx, hxs⟩ := List.forall_mem_cons.mp hgo
      exact ih (hfits.runnable hx) hxs hrest

/-- A property of the machine that the host's transactions and every step keep, and under which steps have one and the
same outcome, gives a run of that outcome only. -/
theorem runWith_constant {P : State → Prop} {r : StepResponse}
    (hbetween : ∀ s iq oq, P s → P ((s.setIq iq).setOq oq))
    (hstep : ∀ s t, P s → step s = .next t → t.response = r ∧ P t) {script : List (List Request)} {s t : State}
    {rs : List StepResponse} (hs : P s) (h : runWith script s = some (rs, t)) : ∀ x ∈ rs, x = r := by
  induction script generalizing s rs with
  | nil =>
    cases h
    exact nofun
  | cons qs rest ih =>
    obtain ⟨u, v, rs', hserve, hu, hrest, rfl⟩ := runWith_cons.mp h
    obtain ⟨iq, oq, rfl⟩ := serveBetween_some hserve
    obtain ⟨hv, hPv⟩ := hstep _ v (hbetween s iq oq hs) hu
    exact List.forall_mem_cons.mpr ⟨hv, ih hPv hrest⟩

theorem runWith_of_halted {script : List (List Request)} {s t : State} {rs : List StepResponse}
    (hs : s.runState = .halted) (h : runWith script s = some (rs, t)) : ∀ x ∈ rs, x = .stepAfterHalt := by
  refine runWith_constant (P := (·.runState = .halted)) (fun _ _ _ hP => hP) (fun u v hP hstep => ?_) hs h
  cases (step_of_halted hP).symm.trans hstep
  exact ⟨rfl, hP⟩

theorem runWith_of_faulted {script : List (List Request)} {s t : State} {rs : List StepResponse} {c : Cause}
    (hs : s.runState = .faulted ∧ s.faultCause = c) (h : runWith script s = some (rs, t)) :
    ∀ x ∈ rs, x = .fault c := by
  refine runWith_constant (P := fun u => u.runState = .faulted ∧ u.faultCause = c) (fun _ _ _ hP => hP)
    (fun u v hP hstep => ?_) hs h
  cases (step_of_faulted hP.1).symm.trans hstep
  exact ⟨congrArg StepResponse.fault hP.2, hP⟩

/-! The obligations. -/

/-- Settles O28: with the operands at hand, only the range check is left to stop the instruction. -/
theorem resultsThatAreNoWordsOverflow : Obligations.ResultsThatAreNoWordsOverflow := by
  unfold Obligations.ResultsThatAreNoWordsOverflow
  intro s a b c ha hb hc
  refine ⟨fun hr => ?_, fun hr => ?_, fun hr => ?_⟩
  · exact exec_tookFault_of_trap (i := .add a b c) (threeOperand_of_overflow (op := .add) ha hb hc (.inl rfl) hr)
  · exact exec_tookFault_of_trap (i := .mul a b c) (threeOperand_of_overflow (op := .mul) ha hb hc (.inr rfl) hr)
  · exact exec_tookFault_of_trap (i := .adjustRelativeBase a) (adjustBase_of_overflow ha hr)

/-- Settles O30: all four instructions have the same operand addresses. -/
theorem threeOperandInstructionsTakeFirstAddressFault : Obligations.ThreeOperandInstructionsTakeFirstAddressFault := by
  unfold Obligations.ThreeOperandInstructionsTakeFirstAddressFault
  intro s a b c f hf i hi
  refine exec_tookFault_of_firstFault ?_
  simp only [List.mem_cons, List.not_mem_nil, or_false] at hi
  rcases hi with rfl | rfl | rfl | rfl <;> exact hf

/-- Settles O31: the operand's address is the only one these instructions access. -/
theorem oneOperandInstructionsTakeAddressFault : Obligations.OneOperandInstructionsTakeAddressFault := by
  unfold Obligations.OneOperandInstructionsTakeAddressFault
  intro s f
  refine ⟨fun a hf => ?_, fun a hf => ⟨?_, ?_⟩⟩
  · exact exec_tookFault_of_firstFault (i := .input a) hf
  · exact exec_tookFault_of_firstFault (i := .output a) hf
  · exact exec_tookFault_of_firstFault (i := .adjustRelativeBase a) hf

/-- Settles O32: the condition's address comes first in any case, and the target's follows when the jump is taken. -/
theorem jumpsTakeFirstAddressFault : Obligations.JumpsTakeFirstAddressFault := by
  unfold Obligations.JumpsTakeFirstAddressFault
  intro s a b f
  have hcond (h : s.firstFault (s.effective a) = some f) (rest : List Int) :
      s.firstFault (s.effective a ++ rest) = some f := by
    rw [State.firstFault_append, h, Option.some_or]
  refine ⟨fun h => ⟨?_, ?_⟩, fun h hv => ?_, fun h hv => ?_⟩
  · exact exec_tookFault_of_firstFault (i := .jumpIfTrue a b) (hcond h _)
  · exact exec_tookFault_of_firstFault (i := .jumpIfFalse a b) (hcond h _)
  · refine exec_tookFault_of_firstFault (i := .jumpIfTrue a b) ?_
    rwa [State.operandAddresses, condNonZero, decide_eq_true hv, if_pos rfl]
  · refine exec_tookFault_of_firstFault (i := .jumpIfFalse a b) ?_
    rwa [State.operandAddresses, condZero, decide_eq_true hv, if_pos rfl]

/-- Settles O33: completed, the state is the old one with one store and the pc moved; otherwise nothing is committed. -/
theorem threeOperandFrame : Obligations.ThreeOperandFrame := by
  unfold Obligations.ThreeOperandFrame
  intro s t a b c i hi h
  obtain ⟨op, hexec⟩ := exec_eq_threeOperand hi s
  rcases State.conclude_next (hexec ▸ h) with ⟨u, hu, rfl⟩ | ⟨f, -, rfl⟩ | ⟨-, rfl⟩
  · obtain ⟨-, -, -, -, rfl⟩ := threeOperand_ok hu
    refine ⟨fun x hx => ?_, rfl, rfl, rfl, rfl, rfl, rfl, fun _ => ⟨⟨rfl, rfl, rfl, rfl⟩, rfl, rfl⟩,
      fun hne => absurd rfl hne⟩
    exact (Memory.read_store _ _ _ _).trans (if_neg hx)
  · exact ⟨fun _ _ => rfl, rfl, rfl, rfl, rfl, rfl, rfl, nofun, fun _ => s.nothingCommitted_raise f⟩
  · exact ⟨fun _ _ => rfl, rfl, rfl, rfl, rfl, rfl, rfl, nofun, fun _ => s.nothingCommitted_respond _⟩

/-- Settles O34: completed, the state is the one after taking the input, with one store and the pc moved; otherwise
nothing is committed. -/
theorem inputFrame : Obligations.InputFrame := by
  unfold Obligations.InputFrame
  intro s t a h
  rcases State.conclude_next h with ⟨u, hu, rfl⟩ | ⟨f, -, rfl⟩ | ⟨-, rfl⟩
  · obtain ⟨-, v, w, hv, rfl⟩ := inputTo_ok hu
    obtain ⟨hiq, hcfg, hrb, hoq, hrun, hqueued, hasked⟩ := takeInput_moves hv
    refine ⟨fun x hx => ?_, hcfg, hrb, hoq, fun _ => ⟨hrun, rfl, hiq, rfl, hqueued, hasked⟩,
      fun hne => absurd rfl hne, nofun⟩
    exact (Memory.read_store _ _ _ _).trans (if_neg hx)
  · exact ⟨fun _ _ => rfl, rfl, rfl, rfl, nofun, fun _ => s.nothingCommitted_raise f, nofun⟩
  · exact ⟨fun _ _ => rfl, rfl, rfl, rfl, nofun, fun _ => s.nothingCommitted_respond _,
      fun _ => s.sameRunState_respond _⟩

/-- Settles O40: what lies before the first word past the ceiling can be accessed, so the fetch stops there. -/
theorem fetchPastTheCeilingFaults : Obligations.FetchPastTheCeilingFaults := by
  unfold Obligations.FetchPastTheCeilingFaults
  intro s hr
  refine ⟨fun hpc => ?_, fun hd k hdw h1 hk hbefore hword => ?_⟩
  · have hfault : s.fetchFault = some (.outOfMemory s.pc) := by
      rw [State.fetchFault, State.accessFault_of_past_ceiling hpc, Option.some_or]
    exact ⟨_, step_of_fetchFault hr hfault, s.tookFault_raise _⟩
  · refine ⟨_, step_of_fetchFault (f := .outOfMemory (s.pc + k)) hr ?_, s.tookFault_raise _⟩
    obtain ⟨n, hn⟩ : ∃ n, hd.paramCount + 1 = k + (n + 1) := ⟨hd.paramCount - k, by omega⟩
    rw [State.fetchFault_of_decode hdw, hn, wordsFrom_add, wordsFrom_succ, asAddresses_append, asAddresses_cons,
      State.firstFault_append, State.firstFault_asAddresses_eq_none_iff.mpr hbefore, Option.none_or,
      State.firstFault_cons, State.accessFault_of_past_ceiling hword, Option.some_or]

/-- Settles O41: such a step raised a fault, and no cause but one of a fault has a detail that fits. -/
theorem faultingStepCommitsNothing : Obligations.FaultingStepCommitsNothing := by
  unfold Obligations.FaultingStepCommitsNothing
  intro s t hr h hft
  obtain ⟨f, rfl, hfits⟩ := step_raised hr h hft
  refine ⟨s.tookFault_raise f, hfits, fun hnone => ?_⟩
  rwa [show f.cause = .none from hnone] at hfits

/-- Settles O42: of all ends of a step only that of an INPUT with nothing to take has this response. -/
theorem emptyQueueStepChangesNothing : Obligations.EmptyQueueStepChangesNothing := by
  unfold Obligations.EmptyQueueStepChangesNothing
  intro s t h hresp
  rcases step_next h with ⟨-, rfl⟩ | ⟨-, rfl⟩ | ⟨hr, -⟩
  · cases hresp
  · cases hresp
  rcases step_next_of_runnable hr h with ⟨f, -, rfl⟩ | ⟨i, s1, hfetch, ⟨-, rfl⟩ | ⟨-, hend⟩⟩
  · cases hresp
  · cases hresp
  · obtain ⟨hd, -, -, -, rfl⟩ := fetch_ok hfetch
    rcases State.conclude_next hend with ⟨u, -, rfl⟩ | ⟨f, -, rfl⟩ | ⟨hwork, rfl⟩
    · cases hresp
    · cases hresp
    · obtain ⟨hq, hp⟩ := workOf_emptyQueue hwork
      exact ⟨hr, hq, hp, s.nothingCommitted_respond _, s.sameRunState_respond _⟩

/-- Settles O48: the answers are looked at only by an INPUT that asks, which counts its request; and a step that cannot
ask is never refused (O47). -/
theorem stepIgnoresAnswersItDoesNotAskFor : Obligations.StepIgnoresAnswersItDoesNotAskFor := by
  unfold Obligations.StepIgnoresAnswersItDoesNotAskFor
  intro s vs n
  refine ⟨fun t h hcount => ?_, fun hs => ?_⟩
  · cases hr : s.runState with
    | runnable => exact step_setProvider hr h hcount vs n
    | halted =>
      cases (step_of_halted hr).symm.trans h
      exact step_of_halted hr
    | faulted =>
      cases (step_of_faulted hr).symm.trans h
      exact step_of_faulted hr
  · rcases stepIsRefusedOnlyForAnswerThatIsNoWord s with ⟨t, h⟩ | ⟨-, -, hq, hp, -⟩
    · exact ⟨t, h, step_provides hs h⟩
    · simp [hq, hp] at hs

/-- Settles O49: OVERFLOW would need a result that is no word (O41), and every integer is one. -/
theorem unboundedWordsNeverOverflow : Obligations.UnboundedWordsNeverOverflow := by
  unfold Obligations.UnboundedWordsNeverOverflow
  intro s t hbits hr h hft hcause
  obtain ⟨-, hfits, -⟩ := faultingStepCommitsNothing s t hr h hft
  rw [hcause] at hfits
  obtain ⟨r, hrange, -⟩ := hfits
  simp [Params.inRange, hbits] at hrange

/-- Settles O57, by induction on the fuel: each unit makes one step, which is the last one or one of those that
continue. -/
theorem runStopsAtFirstStepThatDoesNotContinue : Obligations.RunStopsAtFirstStepThatDoesNotContinue := by
  unfold Obligations.RunStopsAtFirstStepThatDoesNotContinue
  intro fuel
  induction fuel with
  | zero => exact fun s t r => iff_of_false nofun fun ⟨_, _, hk, _⟩ => absurd hk (Nat.not_lt_zero _)
  | succ fuel ih =>
    intro s t r
    constructor
    · intro h
      rw [run] at h
      split at h
      case h_1 | h_2 => cases h
      case h_3 u hu =>
        split_ifs at h with hcont
        · obtain ⟨k, v, hk, hkv, hlast⟩ := (ih u t r).mp h
          exact ⟨k + 1, v, Nat.succ_lt_succ hk, ⟨u, hu, hcont, hkv⟩, hlast⟩
        · cases h
          exact ⟨0, s, Nat.succ_pos _, rfl, hu, rfl, hcont⟩
    · rintro ⟨k, v, hk, hkv, hv, rfl, hne⟩
      cases k with
      | zero =>
        obtain rfl : v = s := hkv
        simp only [run, hv, if_neg hne]
      | succ k =>
        obtain ⟨u, hu, hcont, hkv⟩ := hkv
        simp only [run, hu, if_pos hcont]
        exact (ih u t _).mpr ⟨k, v, Nat.lt_of_succ_lt_succ hk, hkv, hv, rfl, hne⟩

/-- Settles O58: the last step of such a run was made in a Runnable machine, and a machine that it left Halted or
Faulted stays so. -/
theorem runsEndAtHaltAndAtFaultOnly : Obligations.RunsEndAtHaltAndAtFaultOnly := by
  unfold Obligations.RunsEndAtHaltAndAtFaultOnly
  rintro s t script r ⟨⟨before, image, input, hreset⟩, rs, hgo, hrun⟩
  obtain ⟨-, -, rfl⟩ := State.resetWith?_eq_some hreset
  have hfits := runWith_outcomeFits rfl hgo hrun
  cases r with
  | cont => exact .inl ⟨.inl rfl, hfits⟩
  | emptyQueue => exact .inl ⟨.inr rfl, hfits⟩
  | halt => exact .inr (.inl ⟨rfl, hfits, fun _ _ _ hmore => runWith_of_halted hfits hmore⟩)
  | fault c =>
    obtain ⟨hstate, hcause⟩ := hfits
    exact .inr (.inr ⟨c, rfl, hstate, hcause, fun _ _ _ hmore => runWith_of_faulted ⟨hstate, hcause⟩ hmore⟩)
  | stepAfterHalt | idle => exact hfits.elim

/-- Settles O37: the fetch gives the decoded instruction. -/
theorem stepRunsTheDecodedInstruction : Obligations.StepRunsTheDecodedInstruction := by
  unfold Obligations.StepRunsTheDecodedInstruction
  exact fun s i hr hdec haddr => step_of_fetch_ok hr (fetch_of_decode hdec haddr)

/-- Settles O43: such a step is a response and nothing else. -/
theorem stepInHaltedOnlyResponds : Obligations.StepInHaltedOnlyResponds := by
  unfold Obligations.StepInHaltedOnlyResponds
  exact fun s hr => ⟨_, step_of_halted hr, rfl, s.nothingCommitted_respond _, s.sameRunState_respond _⟩

/-- Settles O44: such a step is a response and nothing else. -/
theorem stepInFaultedOnlyResponds : Obligations.StepInFaultedOnlyResponds := by
  unfold Obligations.StepInFaultedOnlyResponds
  exact fun s hr => ⟨_, step_of_faulted hr, rfl, s.nothingCommitted_respond _, s.sameRunState_respond _⟩

end Sys2Proof.Machine
end

section
/-! Arithmetic (spec/41_arithmetic.md). ADD and MUL complete as every instruction of their shape does, with the exact
result of their own ALU operation; the obligations of the family are that lemma at the two operations. -/

namespace Sys2Proof.Machine

/-- The whole effect of a completed instruction of the three-operand shape (R120, R121, R150, R151). Only ADD and MUL
have a range check to pass (R112). -/
theorem conclude_threeOperand_stores {op : AluOp} {a b : ReadOperand} {c : WriteTarget} {s : State}
    (ha : s.readable a) (hb : s.readable b) (hc : s.writable c)
    (hr : (op = .add ∨ op = .mul) → s.cfg.inRange (aluExact op (s.valueOf a) (s.valueOf b)) = true) :
    ∃ t, s.conclude (threeOperand op a b c s) = .next t ∧ t.response = .cont ∧ t.pc = s.pc + 4 ∧ s.sameButMemPc t ∧
      (∀ x, t.mem.read x =
        if x = s.writeAddress c then aluExact op (s.valueOf a) (s.valueOf b) else s.mem.read x) ∧
      t.mem.len = lengthAfter s.mem.len (threeOperandAddresses a b c s) := by
  rw [threeOperand_of ha hb hc hr, State.conclude_ok]
  refine ⟨_, rfl, rfl, rfl, ⟨rfl, rfl, rfl, rfl, rfl, rfl, rfl, rfl, rfl, rfl⟩, fun x => ?_, rfl⟩
  exact Memory.read_store _ _ x _

/-! The obligations. -/

/-- Settles O14: the three-operand shape at the ALU's sum, which is in range. -/
theorem addStoresTheSum : Obligations.AddStoresTheSum := by
  unfold Obligations.AddStoresTheSum
  intro s a b c ha hb hc hsum
  exact conclude_threeOperand_stores (op := .add) ha hb hc fun _ => hsum

/-- Settles O15: the three-operand shape at the ALU's product, which is in range. -/
theorem mulStoresTheProduct : Obligations.MulStoresTheProduct := by
  unfold Obligations.MulStoresTheProduct
  intro s a b c ha hb hc hproduct
  exact conclude_threeOperand_stores (op := .mul) ha hb hc fun _ => hproduct

end Sys2Proof.Machine
end

section
/-! The queues (spec/42_queue_io.md). INPUT is one store of the value it takes, wherever that comes from, and OUTPUT is a
read; a step that found the queue empty has passed its target's check, so with a word pushed it completes. The
obligations of the family follow. -/

namespace Sys2Proof.Machine

/-! INPUT: where its value comes from (R130, R61), and what it does with it. -/

theorem takeInput_of_cons {s : State} {v : Int} {rest : List Int} (hq : s.iq = v :: rest) :
    takeInput s = .ok (v, s.setIq rest) := by
  simp [takeInput, hq]

theorem takeInput_of_answer {s : State} (hq : s.iq = []) (hp : s.cfg.policy = .provider)
    (hr : s.cfg.inRange s.nextAnswer = true) :
    takeInput s = .ok (s.nextAnswer, s.setProvider s.answers.tail (s.provides + 1)) := by
  simp [takeInput, hq, hp, provide, hr]

theorem takeInput_of_empty {s : State} (hq : s.iq = []) (hp : s.cfg.policy = .fault) :
    takeInput s = .error .emptyQueue := by
  simp [takeInput, hq, hp]

theorem State.nextAnswer_of_cons {s : State} {v : Int} {rest : List Int} (h : s.answers = v :: rest) :
    s.nextAnswer = v := by
  simp [State.nextAnswer, h]

/-- With no answer in hand the next one is free, and a word all the same (log entry 4). -/
theorem State.inRange_nextAnswer_of_nil {s : State} (h : s.answers = []) : s.cfg.inRange s.nextAnswer = true := by
  simpa [State.nextAnswer, h] using inRange_toWord s.cfg _

/-- The whole effect of an INPUT that has a value to take: apart from one store and the pc, the state is the one that
taking the value left (R130). -/
theorem exec_input_stores {a : WriteTarget} {s u : State} {v : Int} (ha : s.writable a)
    (h : takeInput s = .ok (v, u)) :
    ∃ t, exec (.input a) s = .next t ∧ t.response = .cont ∧ t.pc = s.pc + 2 ∧ u.sameButMemPc t ∧
      (∀ x, t.mem.read x = if x = s.writeAddress a then v else s.mem.read x) ∧
      t.mem.len = lengthAfter s.mem.len [s.writeAddress a] := by
  rw [exec_of_not_halt Instr.noConfusion, workOf, inputTo_of ha h, State.conclude_ok]
  refine ⟨_, rfl, rfl, rfl, ⟨rfl, rfl, rfl, rfl, rfl, rfl, rfl, rfl, rfl, rfl⟩, fun x => ?_, rfl⟩
  exact Memory.read_store _ _ x _

/-- An INPUT that asks the provider stores the answer, and the queue stays empty (R130, R61). -/
theorem exec_input_stores_answer {a : WriteTarget} {s : State} (ha : s.writable a) (hq : s.iq = [])
    (hp : s.cfg.policy = .provider) (hr : s.cfg.inRange s.nextAnswer = true) :
    ∃ t, exec (.input a) s = .next t ∧ t.response = .cont ∧ t.pc = s.pc + 2 ∧ t.iq = [] ∧
      t.answers = s.answers.tail ∧
      (∀ x, t.mem.read x = if x = s.writeAddress a then s.nextAnswer else s.mem.read x) ∧
      t.mem.len = lengthAfter s.mem.len [s.writeAddress a] ∧
      t.cfg = s.cfg ∧ t.rb = s.rb ∧ t.oq = s.oq ∧ s.sameRunState t := by
  obtain ⟨t, hexec, hresp, hpc, ⟨hcfg, hrb, hiq, hoq, hrun, hcause, hfpc, hinfo, hans, -⟩, hread, hlen⟩ :=
    exec_input_stores ha (takeInput_of_answer hq hp hr)
  exact ⟨t, hexec, hresp, hpc, hiq.trans hq, hans, hread, hlen, hcfg, hrb, hoq, hrun, hcause, hfpc, hinfo⟩

/-! The instructions that store nothing. -/

/-- What the work of an instruction without a write target leaves as it was (R131, R140, R141, R160). -/
theorem workOf_keeps_of_nonStoring {i : Instr} {a b : ReadOperand} {s u : State}
    (hi : i ∈ [Instr.output a, Instr.jumpIfTrue a b, Instr.jumpIfFalse a b, Instr.adjustRelativeBase a, Instr.halt])
    (h : workOf s i = .ok u) :
    (∀ x, u.mem.read x = s.mem.read x) ∧ u.cfg = s.cfg ∧ u.iq = s.iq ∧ u.answers = s.answers ∧
      u.provides = s.provides ∧ (i ≠ .output a → u.oq = s.oq) ∧ (i ≠ .adjustRelativeBase a → u.rb = s.rb) ∧
      s.sameRunState u := by
  cases i with
  | add | mul | input | lessThan | equals => simp at hi
  | output c =>
    obtain rfl : c = a := by simpa using hi
    obtain ⟨-, rfl⟩ := outputOf_ok h
    exact ⟨fun _ => rfl, rfl, rfl, rfl, rfl, fun hne => absurd rfl hne, fun _ => rfl, rfl, rfl, rfl, rfl⟩
  | jumpIfTrue | jumpIfFalse =>
    obtain ⟨-, ⟨-, -, -, rfl⟩ | ⟨-, rfl⟩⟩ := jumpWhen_ok h <;>
      exact ⟨fun _ => rfl, rfl, rfl, rfl, rfl, fun _ => rfl, fun _ => rfl, rfl, rfl, rfl, rfl⟩
  | adjustRelativeBase c =>
    obtain rfl : c = a := by simpa using hi
    obtain ⟨-, -, rfl⟩ := adjustBase_ok h
    exact ⟨fun _ => rfl, rfl, rfl, rfl, rfl, fun _ => rfl, fun hne => absurd rfl hne, rfl, rfl, rfl, rfl⟩
  | halt =>
    cases h
    exact ⟨fun _ => rfl, rfl, rfl, rfl, rfl, fun _ => rfl, fun _ => rfl, rfl, rfl, rfl, rfl⟩

/-! After EMPTY_QUEUE (R130, R103). -/

theorem stopsOnlyByFault.not_emptyQueue {α : Type} {x : Except Stop α} (hx : stopsOnlyByFault x) :
    x ≠ .error .emptyQueue := fun h => by
  obtain ⟨f, hf⟩ := hx _ h
  cases hf

/-- Only INPUT finds the queue empty, and it looks there after its target's check (R103). -/
theorem input_of_workOf_emptyQueue {s : State} {i : Instr} (h : workOf s i = .error .emptyQueue) :
    ∃ a, i = .input a ∧ s.writable a := by
  cases i with
  | add a b c | mul a b c | lessThan a b c | equals a b c =>
    exact absurd h (stopsOnlyByFault_threeOperand _ a b c s).not_emptyQueue
  | input a =>
    rcases bind_error h with hw | ⟨⟨d, s1⟩, hw, -⟩
    · exact absurd hw (stopsOnlyByFault_wAddr a s).not_emptyQueue
    · exact ⟨a, rfl, (wAddr_ok hw).1⟩
  | output a => exact absurd h (stopsOnlyByFault_outputOf a s).not_emptyQueue
  | jumpIfTrue a b | jumpIfFalse a b => exact absurd h (stopsOnlyByFault_jumpWhen _ a b s).not_emptyQueue
  | adjustRelativeBase a => exact absurd h (stopsOnlyByFault_adjustBase a s).not_emptyQueue
  | halt => cases h

/-- A step responds EMPTY_QUEUE at an INPUT that was fetched and whose target can be written (R100, R103). -/
theorem step_emptyQueue {s t : State} (h : step s = .next t) (hresp : t.response = .emptyQueue) :
    t = s.respond .emptyQueue ∧ ∃ a s1, fetch s = .ok (.input a, s1) ∧ s1.writable a := by
  obtain ⟨hr, -⟩ := emptyQueueStepChangesNothing s t h hresp
  rcases step_next_of_runnable hr h with ⟨f, -, rfl⟩ | ⟨i, s1, hfetch, ⟨-, rfl⟩ | ⟨-, hend⟩⟩
  · cases hresp
  · cases hresp
  rcases State.conclude_next hend with ⟨u, -, rfl⟩ | ⟨f, -, rfl⟩ | ⟨hwork, rfl⟩
  · cases hresp
  · cases hresp
  · obtain ⟨a, rfl, ha⟩ := input_of_workOf_emptyQueue hwork
    exact ⟨rfl, a, s1, hfetch, ha⟩

/-- A fetch looks at memory, pc and parameters alone, so neither a response nor a push changes what it gives. -/
theorem fetch_respond_setIq {s s1 : State} {i : Instr} (h : fetch s = .ok (i, s1)) (r : StepResponse) (q : List Int) :
    fetch ((s.respond r).setIq q) = .ok (i, (s1.respond r).setIq q) := by
  obtain ⟨hd, hdw, haddr, rfl, rfl⟩ := fetch_ok h
  exact fetch_of (s := (s.respond r).setIq q) hdw haddr

/-- A step at an INPUT whose target can be written, with a value queued (R130). -/
theorem step_of_queued_input {s s1 : State} {a : WriteTarget} {v : Int} {rest : List Int} (hr : s.runState = .runnable)
    (hf : fetch s = .ok (.input a, s1)) (ha : s1.writable a) (hq : s.iq = v :: rest) :
    ∃ t, step s = .next t ∧ t.response = .cont ∧ t.iq = rest ∧ t.pc = s.pc + 2 := by
  obtain ⟨hd, -, -, -, rfl⟩ := fetch_ok hf
  rw [step_of_work hr hf Instr.noConfusion, workOf, inputTo_of_queued ha hq, State.conclude_ok]
  exact ⟨_, rfl, rfl, rfl, rfl⟩

/-! The obligations. -/

/-- Settles O18: the value taken is the front of the queue. -/
theorem inputStoresTheQueuedValue : Obligations.InputStoresTheQueuedValue := by
  unfold Obligations.InputStoresTheQueuedValue
  intro s a v rest ha hq
  obtain ⟨t, hexec, hresp, hpc, ⟨hcfg, hrb, hiq, hoq, hrun, hcause, hfpc, hinfo, hans, hprov⟩, hread, hlen⟩ :=
    exec_input_stores ha (takeInput_of_cons hq)
  exact ⟨t, hexec, hresp, hpc, hiq, hread, hlen, hcfg, hrb, hoq, ⟨hrun, hcause, hfpc, hinfo⟩, hans, hprov⟩

/-- Settles O19: the answer asked for is the first in hand. -/
theorem inputStoresTheProvidersAnswer : Obligations.InputStoresTheProvidersAnswer := by
  unfold Obligations.InputStoresTheProvidersAnswer
  intro s a v rest ha hq hp hans hv
  have hnext := State.nextAnswer_of_cons hans
  have hstores := exec_input_stores_answer ha hq hp (hnext.symm ▸ hv)
  rwa [hnext, hans] at hstores

/-- Settles O20: the answer asked for is a free one, which is a word. -/
theorem inputStoresSomeWordWithoutAnswerInHand : Obligations.InputStoresSomeWordWithoutAnswerInHand := by
  unfold Obligations.InputStoresSomeWordWithoutAnswerInHand
  intro s a ha hq hp hans
  have hword := State.inRange_nextAnswer_of_nil hans
  obtain ⟨t, hexec, hresp, hpc, hiq, -, hstored⟩ := exec_input_stores_answer ha hq hp hword
  exact ⟨t, s.nextAnswer, hexec, hresp, hpc, hiq, hword, hstored⟩

/-- Settles O23: with the operand read, OUTPUT has nothing left that could stop it. -/
theorem outputAppendsTheOperand : Obligations.OutputAppendsTheOperand := by
  unfold Obligations.OutputAppendsTheOperand
  intro s a ha
  rw [exec_of_not_halt Instr.noConfusion, workOf, outputOf_of ha, State.conclude_ok]
  exact ⟨_, rfl, rfl, rfl, rfl, fun _ => rfl, rfl, rfl, rfl, rfl, ⟨rfl, rfl, rfl, rfl⟩, rfl, rfl⟩

/-- Settles O35, by the ends of an instruction: completed, it changed what its work changes; otherwise nothing is
committed. -/
theorem nonStoringFrame : Obligations.NonStoringFrame := by
  unfold Obligations.NonStoringFrame
  intro s t a b i hi h
  rcases exec_next h with ⟨-, rfl⟩ | ⟨-, u, hu, rfl⟩ | ⟨f, rfl, -⟩ | ⟨rfl, -⟩
  · exact ⟨fun _ => rfl, rfl, rfl, rfl, rfl, fun _ => rfl, fun _ => rfl, nofun,
      fun _ => ⟨rfl, rfl, rfl, rfl, rfl, rfl, rfl, rfl⟩⟩
  · obtain ⟨hread, hcfg, hiq, hans, hprov, hoq, hrb, hrun⟩ := workOf_keeps_of_nonStoring hi hu
    exact ⟨hread, hcfg, hiq, hans, hprov, hoq, hrb, fun _ => ⟨hrun, (workOf_grewBy hu).2⟩, fun hne => absurd rfl hne⟩
  · exact ⟨fun _ => rfl, rfl, rfl, rfl, rfl, fun _ => rfl, fun _ => rfl, nofun, fun _ => s.nothingCommitted_raise f⟩
  · exact ⟨fun _ => rfl, rfl, rfl, rfl, rfl, fun _ => rfl, fun _ => rfl, nofun, fun _ => s.nothingCommitted_respond _⟩

/-- Settles O50: the step after the push fetches the same INPUT, and finds the pushed word alone in the queue. -/
theorem pushAfterEmptyQueueLetsInputComplete : Obligations.PushAfterEmptyQueueLetsInputComplete := by
  unfold Obligations.PushAfterEmptyQueueLetsInputComplete
  intro s t v h hresp hv
  obtain ⟨hr, hq, -⟩ := emptyQueueStepChangesNothing s t h hresp
  obtain ⟨rfl, a, s1, hfetch, ha⟩ := step_emptyQueue h hresp
  have hpush : (s.respond .emptyQueue).ioPush? v = some ((s.respond .emptyQueue).setIq [v]) := by
    rw [State.ioPush?_of_inRange (s := s.respond .emptyQueue) hv, State.respond_iq, hq, List.nil_append]
  obtain ⟨w, hstep, hdone⟩ :=
    step_of_queued_input (s := (s.respond .emptyQueue).setIq [v]) hr (fetch_respond_setIq hfetch _ _) ha rfl
  exact ⟨_, w, hpush, hstep, hdone⟩

/-- Settles O22: the target is checked, and then the queue is found empty. -/
theorem inputOnEmptyQueueRespondsEmptyQueue : Obligations.InputOnEmptyQueueRespondsEmptyQueue := by
  unfold Obligations.InputOnEmptyQueueRespondsEmptyQueue
  intro s a ha hq hp
  rw [exec_of_not_halt Instr.noConfusion, workOf, inputTo_of_stop ha (takeInput_of_empty hq hp), State.conclude_error]
  exact ⟨_, rfl, rfl, s.nothingCommitted_respond _, s.sameRunState_respond _⟩

end Sys2Proof.Machine
end

section
/-! Jumps (spec/43_branch.md). Both jumps have one shape and differ in their test of the condition only: a jump that
completes grows memory for the operands it read and moves the pc, and a taken one can still stop at its target. The
obligations of the family are the lemmas about the shape at the two tests. -/

namespace Sys2Proof.Machine

/-! The tests (R112). -/

theorem condNonZero_eq_true_iff {v : Int} : condNonZero v = true ↔ v ≠ 0 := decide_eq_true_iff

theorem condNonZero_eq_false_iff {v : Int} : condNonZero v = false ↔ v = 0 := by
  rw [← Bool.not_eq_true, condNonZero_eq_true_iff, not_not]

theorem condZero_eq_true_iff {v : Int} : condZero v = true ↔ v = 0 := decide_eq_true_iff

theorem condZero_eq_false_iff {v : Int} : condZero v = false ↔ v ≠ 0 := decide_eq_false_iff_not

/-! The shape of both jumps (R140, R141, R142). -/

/-- The whole effect of an instruction that did nothing but grow memory for its accesses and move the pc. -/
theorem State.conclude_moves (s : State) (addrs : List Nat) (n : Nat) :
    ∃ t, s.conclude (.ok ((s.setMem (s.mem.grownFor addrs)).setPc n)) = .next t ∧ t.response = .cont ∧ t.pc = n ∧
      s.sameButMemPc t ∧ (∀ x, t.mem.read x = s.mem.read x) ∧ t.mem.len = lengthAfter s.mem.len addrs := by
  rw [State.conclude_ok]
  exact ⟨_, rfl, rfl, rfl, ⟨rfl, rfl, rfl, rfl, rfl, rfl, rfl, rfl, rfl, rfl⟩, fun _ => rfl, rfl⟩

theorem conclude_jumpWhen_taken {test : Int → Bool} {a b : ReadOperand} {s : State} (ha : s.readable a)
    (ht : test (s.valueOf a) = true) (hb : s.readable b) (hv : 0 ≤ s.valueOf b) :
    ∃ t, s.conclude (jumpWhen test a b s) = .next t ∧ t.response = .cont ∧ (t.pc : Int) = s.valueOf b ∧
      s.sameButMemPc t ∧ (∀ x, t.mem.read x = s.mem.read x) ∧
      t.mem.len = lengthAfter s.mem.len (s.readAddresses a ++ s.readAddresses b) := by
  rw [jumpWhen_taken ha ht hb hv]
  obtain ⟨t, hend, hresp, hpc, hrest⟩ :=
    s.conclude_moves (s.readAddresses a ++ s.readAddresses b) (s.valueOf b).toNat
  exact ⟨t, hend, hresp, hpc ▸ Int.toNat_of_nonneg hv, hrest⟩

/-- The target operand may be any: it is not resolved (R140). -/
theorem conclude_jumpWhen_not_taken {test : Int → Bool} {a : ReadOperand} {s : State} (ha : s.readable a)
    (ht : test (s.valueOf a) = false) (b : ReadOperand) :
    ∃ t, s.conclude (jumpWhen test a b s) = .next t ∧ t.response = .cont ∧ t.pc = s.pc + 3 ∧ s.sameButMemPc t ∧
      (∀ x, t.mem.read x = s.mem.read x) ∧ t.mem.len = lengthAfter s.mem.len (s.readAddresses a) := by
  rw [jumpWhen_not_taken ha ht]
  exact s.conclude_moves _ _

theorem jumpWhen_of_negative_target {test : Int → Bool} {a b : ReadOperand} {s : State} (ha : s.readable a)
    (ht : test (s.valueOf a) = true) (hb : s.readable b) (hv : s.valueOf b < 0) :
    jumpWhen test a b s = .error (.trap (.negativeAddress (s.valueOf b))) := by
  rw [jumpWhen_eq_effect ha fun _ => hb, jumpEffect, if_pos ht, if_pos hv]

/-! The obligations. -/

/-- Settles O24: the shape of the jumps at the test for a value that is not 0. -/
theorem jumpIfTrueJumpsWhenNotZero : Obligations.JumpIfTrueJumpsWhenNotZero := by
  unfold Obligations.JumpIfTrueJumpsWhenNotZero
  intro s a b ha
  refine ⟨fun hcond hb hv => ?_, fun hcond => ?_⟩
  · exact conclude_jumpWhen_taken ha (condNonZero_eq_true_iff.mpr hcond) hb hv
  · exact conclude_jumpWhen_not_taken ha (condNonZero_eq_false_iff.mpr hcond) b

/-- Settles O25: the shape of the jumps at the test for 0. -/
theorem jumpIfFalseJumpsWhenZero : Obligations.JumpIfFalseJumpsWhenZero := by
  unfold Obligations.JumpIfFalseJumpsWhenZero
  intro s a b ha
  refine ⟨fun hcond hb hv => ?_, fun hcond => ?_⟩
  · exact conclude_jumpWhen_taken ha (condZero_eq_true_iff.mpr hcond) hb hv
  · exact conclude_jumpWhen_not_taken ha (condZero_eq_false_iff.mpr hcond) b

/-- Settles O29: a taken jump whose operands can be read is stopped by the sign of its target. -/
theorem takenJumpToNegativeTargetFaults : Obligations.TakenJumpToNegativeTargetFaults := by
  unfold Obligations.TakenJumpToNegativeTargetFaults
  intro s a b ha hb hv
  refine ⟨fun hcond => ?_, fun hcond => ?_⟩
  · exact exec_tookFault_of_trap (i := .jumpIfTrue a b)
      (jumpWhen_of_negative_target ha (condNonZero_eq_true_iff.mpr hcond) hb hv)
  · exact exec_tookFault_of_trap (i := .jumpIfFalse a b)
      (jumpWhen_of_negative_target ha (condZero_eq_true_iff.mpr hcond) hb hv)

end Sys2Proof.Machine
end

section
/-! Comparison (spec/44_compare.md). LESS-THAN and EQUALS complete as every instruction of their shape does, with the 1
or 0 of their own ALU operation, which has no range check; the obligations of the family are `conclude_threeOperand_stores`
at the two operations. -/

namespace Sys2Proof.Machine

/-! The obligations. -/

/-- Settles O16: the three-operand shape at the ALU's signed order, which has no range check to pass. -/
theorem lessThanStoresTheComparison : Obligations.LessThanStoresTheComparison := by
  unfold Obligations.LessThanStoresTheComparison
  intro s a b c ha hb hc
  have hunchecked : ¬ (AluOp.lt = .add ∨ AluOp.lt = .mul) := by decide
  exact conclude_threeOperand_stores (op := .lt) ha hb hc fun hchecked => absurd hchecked hunchecked

/-- Settles O17: the three-operand shape at the ALU's equality, which has no range check to pass. -/
theorem equalsStoresTheComparison : Obligations.EqualsStoresTheComparison := by
  unfold Obligations.EqualsStoresTheComparison
  intro s a b c ha hb hc
  have hunchecked : ¬ (AluOp.eq = .add ∨ AluOp.eq = .mul) := by decide
  exact conclude_threeOperand_stores (op := .eq) ha hb hc fun hchecked => absurd hchecked hunchecked

end Sys2Proof.Machine
end

section
/-! Relative base (spec/45_relative_base.md). The operand is read before the base moves, so it is resolved with the old
one, and the range check is all that is left to pass. -/

namespace Sys2Proof.Machine

/-! The obligations. -/

/-- Settles O26: with the operand read and the sum in range, ADJUST-RELATIVE-BASE has nothing left that could stop it. -/
theorem adjustRelativeBaseAddsTheOperand : Obligations.AdjustRelativeBaseAddsTheOperand := by
  unfold Obligations.AdjustRelativeBaseAddsTheOperand
  intro s a ha hsum
  rw [exec_of_not_halt Instr.noConfusion, workOf, adjustBase_of ha hsum, State.conclude_ok]
  exact ⟨_, rfl, rfl, rfl, rfl, fun _ => rfl, rfl, rfl, rfl, rfl, ⟨rfl, rfl, rfl, rfl⟩, rfl, rfl⟩

end Sys2Proof.Machine
end

section
/-! HALT (spec/46_halt.md). HALT is one word, and the HALTED query says that memory covers it: its fetch neither faults
nor grows memory, so a step moves the machine itself to Halted, with nothing for R101 to undo. -/

namespace Sys2Proof.Machine

theorem exec_halt (s : State) : exec .halt s = .next ((s.setRunState .halted).respond .halt) := by
  rw [exec_eq, if_pos rfl]

theorem State.nothingCommitted_setRunState_respond (s : State) (q : RunState) (r : StepResponse) :
    s.nothingCommitted ((s.setRunState q).respond r) :=
  ⟨rfl, rfl, rfl, rfl, rfl, rfl, rfl, rfl⟩

/-- Accesses that memory already covers do not grow it (R41). -/
theorem Memory.grownFor_of_forall_lt {m : Memory} {xs : List Nat} (h : ∀ x ∈ xs, x < m.len) : m.grownFor xs = m := by
  rw [Memory.grownFor, lengthAfter_of_forall_lt h]

theorem State.addressable_of_lt {s : State} {a : Nat} (h : a < s.mem.len) : s.addressable (a : Int) :=
  ⟨Int.natCast_nonneg a, .inl h⟩

/-- The fetch of a HALT word changes nothing: there is no parameter word to fetch (R102, R170). -/
theorem fetch_of_isHalted {s : State} (h : s.isHalted = true) : fetch s = .ok (.halt, s) := by
  obtain ⟨hpc, hword⟩ := State.isHalted_iff.mp h
  have hcovered : ∀ x ∈ wordsFrom s.pc (Header.halt.paramCount + 1), x < s.mem.len := by
    simpa [wordsFrom, Header.paramCount] using hpc
  rw [fetch_of hword fun x hx => State.addressable_of_lt (hcovered x hx), Memory.grownFor_of_forall_lt hcovered,
    State.setMem_self, Header.assemble_eq_halt_iff.mpr rfl]

/-! The obligations. -/

/-- Settles O45: the fetch changes nothing, so the step is HALT run on the machine as it was. -/
theorem stepOnHaltWordHalts : Obligations.StepOnHaltWordHalts := by
  unfold Obligations.StepOnHaltWordHalts
  exact fun s hr hhalt => ⟨_, step_of_halt hr (fetch_of_isHalted hhalt), rfl, rfl,
    s.nothingCommitted_setRunState_respond _ _, rfl, rfl, rfl⟩

/-- Settles O27: HALT has no way to fail, and its end is a move of RUN_STATE and a response. -/
theorem haltMovesToHalted : Obligations.HaltMovesToHalted := by
  unfold Obligations.HaltMovesToHalted
  exact fun s => ⟨_, exec_halt s, rfl, rfl, s.nothingCommitted_setRunState_respond _ _, rfl, rfl, rfl⟩

end Sys2Proof.Machine
end

section
/-! RESET and the loader (spec/70_reset_and_hazards.md). A RESET of words is `State.load`, whose memory reads as the
image. The loader trims, splits and reads each token: each of the three is said once below, in terms of the library's
lists where it has the function, and canonical text passes all three unharmed. -/

namespace Sys2Proof.Machine

/-! RESET (R210, R212). -/

/-- The listed words of an image read as the image, 0 where none is listed (R44). -/
theorem lookup_imageCells (image : List Int) (a i : Nat) :
    lookup (imageCells a image) (a + i) = image.getD i 0 := by
  induction image generalizing a i with
  | nil => rfl
  | cons v rest ih =>
    cases i with
    | zero =>
      by_cases hv : v = 0
      · have hunlisted : lookup (imageCells (a + 1) rest) a = 0 := by
          by_contra hne
          exact absurd (mem_imageCells (mem_of_lookup hne)).1 (Nat.not_succ_le_self a)
        simpa [imageCells, hv] using hunlisted
      · simp [imageCells, lookup, hv]
    | succ i =>
      have htail : lookup (imageCells (a + 1) rest) (a + (i + 1)) = rest.getD i 0 := by
        rw [← ih (a + 1) i, Nat.add_right_comm, Nat.add_assoc]
      by_cases hv : v = 0
      · simpa [imageCells, hv] using htail
      · simpa [imageCells, lookup, hv] using htail

/-- The copy of an image holds the image (R210). -/
@[simp] theorem Memory.contents_ofImage (image : List Int) : (Memory.ofImage image).contents = image := by
  have hlen : (Memory.ofImage image).contents.length = image.length := Memory.length_contents _
  refine List.ext_getElem hlen fun i _ hi => ?_
  have hread : (Memory.ofImage image).read i = image.getD i 0 := by
    rw [Memory.read, Memory.ofImage, ← lookup_imageCells image 0 i, Nat.zero_add]
  simp [Memory.contents, hread, hi]

theorem State.resetWith?_eq_ite (s : State) (image input : List Int) :
    s.resetWith? image input =
      if ∀ v ∈ image ++ input, s.cfg.inRange v = true then some (s.load image input) else none := by
  simp [State.resetWith?, List.all_eq_true, or_imp, forall_and]

theorem serve_reset_of_words {s : State} {image input : List Int}
    (h : ∀ v ∈ image ++ input, s.cfg.inRange v = true) :
    serve (.reset image input) s = .next (.done, s.load image input) := by
  rw [serve, State.resetWith?_eq_ite, if_pos h]

theorem serve_reset_of_not_word {s : State} {image input : List Int}
    (h : ∃ v ∈ image ++ input, s.cfg.inRange v = false) :
    serve (.reset image input) s = .next (.rejected, s) := by
  have hno : ¬ ∀ v ∈ image ++ input, s.cfg.inRange v = true := by simpa using h
  rw [serve, State.resetWith?_eq_ite, if_neg hno]

/-- A RESET overwrites all that an earlier one set, so repeating it changes nothing (R210). -/
@[simp] theorem State.load_load (s : State) (image input image' input' : List Int) :
    (s.load image input).load image' input' = s.load image' input' := rfl

/-! Trimming. -/

theorem trim_eq_rdropWhile (t : List Char) : trim t = (t.dropWhile isBlank).rdropWhile isBlank := rfl

/-- What trimming drops: blanks in front, and blanks at the back of what is left. -/
theorem takeWhile_trim_rtakeWhile (t : List Char) :
    t.takeWhile isBlank ++ trim t ++ (t.dropWhile isBlank).rtakeWhile isBlank = t := by
  rw [List.append_assoc, trim_eq_rdropWhile, List.rdropWhile_append_rtakeWhile, List.takeWhile_append_dropWhile]

theorem isBlank_of_mem_head?_trim {t : List Char} {c : Char} (h : c ∈ (trim t).head?) : isBlank c = false := by
  obtain ⟨back, hback⟩ : trim t <+: t.dropWhile isBlank := List.rdropWhile_prefix _ _
  have hhead : (t.dropWhile isBlank).head? = some c := by
    rw [← hback, List.head?_append, Option.mem_def.mp h, Option.some_or]
  simpa [hhead] using List.head?_dropWhile_not isBlank t

theorem isBlank_of_mem_getLast?_trim {t : List Char} {c : Char} (h : c ∈ (trim t).getLast?) :
    isBlank c = false := by
  rw [trim, List.getLast?_reverse, Option.mem_def] at h
  simpa [h] using List.head?_dropWhile_not isBlank (t.dropWhile isBlank).reverse

/-- A text with no blank in it is all that trimming leaves of it, whatever blanks stand behind it. -/
theorem trim_append_of_blank {t back : List Char} (ht : ∀ c ∈ t, isBlank c = false)
    (hback : ∀ c ∈ back, isBlank c = true) : trim (t ++ back) = t := by
  have hfix {u : List Char} (hu : ∀ c ∈ u, isBlank c = false) : u.dropWhile isBlank = u :=
    List.dropWhile_eq_self_iff.mpr fun hl => by simp [hu _ (List.getElem_mem hl)]
  cases t with
  | nil => simp [trim, List.dropWhile_eq_nil_iff.mpr hback]
  | cons c rest =>
    have hfront : (c :: rest ++ back).dropWhile isBlank = c :: rest ++ back := by
      rw [List.cons_append, List.dropWhile_cons_of_neg (by simp [ht c])]
    rw [trim, hfront, List.reverse_append, List.dropWhile_append_of_pos (by simpa using hback),
      hfix fun x hx => ht x (List.mem_reverse.mp hx), List.reverse_reverse]

/-! Splitting. -/

theorem splitCommas_eq_splitOn (t : List Char) : splitCommas t = t.splitOn ',' := by
  induction t with
  | nil => rfl
  | cons c rest ih =>
    rw [splitCommas, ih, List.splitOn_cons_eq_if_modifyHead]
    by_cases hc : c = ','
    · simp [hc]
    · cases h : rest.splitOn ',' with
      | nil => exact absurd h (List.splitOn_ne_nil _ _)
      | cons tok toks => simp [hc]

theorem splitCommas_ne_nil (t : List Char) : splitCommas t ≠ [] := by
  rw [splitCommas_eq_splitOn]
  exact List.splitOn_ne_nil _ _

theorem comma_notMem_of_mem_splitCommas {t tok : List Char} (h : tok ∈ splitCommas t) : ',' ∉ tok := by
  induction t generalizing tok with
  | nil =>
    obtain rfl := List.mem_singleton.mp h
    exact List.not_mem_nil
  | cons c rest ih =>
    by_cases hc : c = ','
    · rw [splitCommas, if_pos hc, List.mem_cons] at h
      obtain rfl | h := h
      · exact List.not_mem_nil
      · exact ih h
    · cases hrest : splitCommas rest with
      | nil => exact absurd hrest (splitCommas_ne_nil rest)
      | cons tok' toks =>
        rw [splitCommas, if_neg hc, hrest] at h
        obtain rfl | h := List.mem_cons.mp h
        · exact List.not_mem_cons_of_ne_of_not_mem (Ne.symm hc) (ih (by simp [hrest]))
        · exact ih (by simp [hrest, h])

/-! Tokens. -/

theorem digitValue?_eq_none_iff {c : Char} : digitValue? c = none ↔ ¬ isDigit c := by
  simp [digitValue?, isDigit]

theorem digitsFrom_eq_none_iff {acc : Nat} {cs : List Char} :
    digitsFrom acc cs = none ↔ ∃ c ∈ cs, ¬ isDigit c := by
  induction cs generalizing acc with
  | nil => simp [digitsFrom]
  | cons c rest ih =>
    rw [digitsFrom, List.exists_mem_cons_iff, ← digitValue?_eq_none_iff]
    cases digitValue? c with
    | none => simp
    | some d => simpa using ih

theorem naturalOf_of_ne_nil {cs : List Char} (h : cs ≠ []) : naturalOf cs = digitsFrom 0 cs := by
  cases cs with
  | nil => exact absurd rfl h
  | cons c rest => rfl

theorem naturalOf_eq_none_iff {cs : List Char} : naturalOf cs = none ↔ ¬ (cs ≠ [] ∧ ∀ c ∈ cs, isDigit c) := by
  by_cases h : cs = []
  · simp [h, naturalOf]
  · rw [naturalOf_of_ne_nil h, digitsFrom_eq_none_iff]
    simp [h]

theorem not_isDigit_minus : ¬ isDigit '-' := by decide

theorem tokenValue_minus (cs : List Char) :
    tokenValue ('-' :: cs) = (naturalOf cs).map (fun n : Nat => -(n : Int)) := by
  rw [tokenValue, if_pos rfl]

theorem tokenValue_of_head?_ne_minus {tok : List Char} (h : tok.head? ≠ some '-') :
    tokenValue tok = (naturalOf tok).map (fun n : Nat => (n : Int)) := by
  cases tok with
  | nil => rfl
  | cons c rest => rw [tokenValue, if_neg (by simpa using h)]

theorem isNumeral_minus_iff {cs : List Char} : isNumeral ('-' :: cs) ↔ cs ≠ [] ∧ ∀ c ∈ cs, isDigit c := by
  constructor
  · rintro ⟨sign, digits, htok, rfl | rfl, hne, hdigits⟩
    · exact absurd (hdigits '-' (by simp [← show _ = digits from htok])) not_isDigit_minus
    · obtain rfl : cs = digits := by simpa using htok
      exact ⟨hne, hdigits⟩
  · rintro ⟨hne, hdigits⟩
    exact ⟨['-'], cs, rfl, .inr rfl, hne, hdigits⟩

theorem isNumeral_iff_of_head?_ne_minus {tok : List Char} (h : tok.head? ≠ some '-') :
    isNumeral tok ↔ tok ≠ [] ∧ ∀ c ∈ tok, isDigit c := by
  constructor
  · rintro ⟨sign, digits, rfl, rfl | rfl, hne, hdigits⟩
    · exact ⟨hne, hdigits⟩
    · exact absurd rfl h
  · rintro ⟨hne, hdigits⟩
    exact ⟨[], tok, rfl, .inl rfl, hne, hdigits⟩

/-- The tokens with a value are the numerals (R215). -/
theorem tokenValue_eq_none_iff {tok : List Char} : tokenValue tok = none ↔ ¬ isNumeral tok := by
  by_cases h : tok.head? = some '-'
  · obtain ⟨cs, rfl⟩ := List.head?_eq_some_iff.mp h
    rw [tokenValue_minus, Option.map_eq_none_iff, naturalOf_eq_none_iff, isNumeral_minus_iff]
  · rw [tokenValue_of_head?_ne_minus h, Option.map_eq_none_iff, naturalOf_eq_none_iff,
      isNumeral_iff_of_head?_ne_minus h]

theorem tokenWord_of_tokenValue {p : Params} {tok : List Char} {v : Int} (h : tokenValue tok = some v) :
    tokenWord p tok = if p.inRange v then some v else none := by
  rw [tokenWord, h]

theorem tokenWord_eq_none_iff {p : Params} {tok : List Char} :
    tokenWord p tok = none ↔ ¬ isNumeral tok ∨ ∃ v, tokenValue tok = some v ∧ p.inRange v = false := by
  rw [← tokenValue_eq_none_iff]
  cases h : tokenValue tok with
  | none => simp [tokenWord, h]
  | some v => simp [tokenWord_of_tokenValue h]

/-- One bad token fails the whole text: there is no partial result (R215). -/
theorem tokenWords_eq_none_iff {p : Params} {toks : List (List Char)} :
    tokenWords p toks = none ↔ ∃ tok ∈ toks, tokenWord p tok = none := by
  induction toks with
  | nil => simp [tokenWords]
  | cons tok toks ih =>
    rw [tokenWords, List.exists_mem_cons_iff, ← ih]
    cases tokenWord p tok with
    | none => simp
    | some v => cases tokenWords p toks <;> simp

theorem tokenWords_map {p : Params} {f : Int → List Char} {ws : List Int}
    (h : ∀ w ∈ ws, tokenWord p (f w) = some w) : tokenWords p (ws.map f) = some ws := by
  induction ws with
  | nil => rfl
  | cons w ws ih =>
    obtain ⟨hw, hws⟩ := List.forall_mem_cons.mp h
    simp [tokenWords, hw, ih hws]

/-! Canonical numerals (R216). -/

theorem digitValue?_digitChar {d : Nat} (h : d < 10) : digitValue? (digitChar d) = some d := by
  decide +revert

theorem isDigit_digitChar {d : Nat} (h : d < 10) : isDigit (digitChar d) := by
  by_contra hno
  simpa [digitValue?_digitChar h] using digitValue?_eq_none_iff.mpr hno

/-- The digits written for `n` read as `n`, in front of any more text. -/
theorem digitsFrom_naturalDigits {fuel n : Nat} (h : n < fuel) (acc : List Char) :
    digitsFrom 0 (naturalDigits fuel n acc) = digitsFrom n acc := by
  induction fuel generalizing n acc with
  | zero => exact absurd h (Nat.not_lt_zero n)
  | succ fuel ih =>
    by_cases hn : n < 10
    · simp [naturalDigits, hn, digitsFrom, digitValue?_digitChar hn]
    · calc digitsFrom 0 (naturalDigits (fuel + 1) n acc)
        _ = digitsFrom 0 (naturalDigits fuel (n / 10) (digitChar (n % 10) :: acc)) := by simp [naturalDigits, hn]
        _ = digitsFrom (n / 10) (digitChar (n % 10) :: acc) := ih (by omega) _
        _ = digitsFrom (10 * (n / 10) + n % 10) acc := by
          simp [digitsFrom, digitValue?_digitChar (Nat.mod_lt n (by decide))]
        _ = digitsFrom n acc := by rw [Nat.div_add_mod]

theorem naturalDigits_ne_nil {fuel n : Nat} {acc : List Char} (h : 0 < fuel ∨ acc ≠ []) :
    naturalDigits fuel n acc ≠ [] := by
  induction fuel generalizing n acc with
  | zero => exact h.resolve_left (lt_irrefl 0)
  | succ fuel ih =>
    rw [naturalDigits]
    split
    · exact List.cons_ne_nil _ _
    · exact ih (.inr (List.cons_ne_nil _ _))

theorem naturalOf_naturalText (n : Nat) : naturalOf (naturalText n) = some n := by
  rw [naturalText, naturalOf_of_ne_nil (naturalDigits_ne_nil (.inl n.succ_pos)),
    digitsFrom_naturalDigits n.lt_succ_self, digitsFrom]

theorem isDigit_of_mem_naturalText {n : Nat} {c : Char} (h : c ∈ naturalText n) : isDigit c := by
  have hsome : naturalOf (naturalText n) ≠ none := by simp [naturalOf_naturalText]
  obtain ⟨-, hdigits⟩ := not_not.mp (mt naturalOf_eq_none_iff.mpr hsome)
  exact hdigits c h

theorem head?_naturalText_ne_minus (n : Nat) : (naturalText n).head? ≠ some '-' :=
  fun h => not_isDigit_minus (isDigit_of_mem_naturalText (List.mem_of_mem_head? h))

/-- A canonical numeral has the value it was written for (R216). -/
@[simp] theorem tokenValue_integerText (v : Int) : tokenValue (integerText v) = some v := by
  by_cases hv : v < 0
  · have habs : -(v.natAbs : Int) = v := by omega
    rw [integerText, if_pos hv, tokenValue_minus, naturalOf_naturalText, Option.map_some, habs]
  · have habs : (v.natAbs : Int) = v := by omega
    rw [integerText, if_neg hv, tokenValue_of_head?_ne_minus (head?_naturalText_ne_minus _), naturalOf_naturalText,
      Option.map_some, habs]

theorem eq_minus_or_isDigit_of_mem_integerText {v : Int} {c : Char} (h : c ∈ integerText v) :
    c = '-' ∨ isDigit c := by
  rw [integerText] at h
  split at h
  · exact (List.mem_cons.mp h).imp_right isDigit_of_mem_naturalText
  · exact .inr (isDigit_of_mem_naturalText h)

theorem comma_notMem_integerText (v : Int) : ',' ∉ integerText v := fun h =>
  absurd (eq_minus_or_isDigit_of_mem_integerText h) (by decide)

theorem isBlank_of_isDigit {c : Char} (h : isDigit c) : isBlank c = false := by
  have hlow : 48 ≤ c.toNat := h.1
  have hspace : c ≠ ' ' := by
    rintro rfl
    exact absurd hlow (by decide)
  have hcontrol : ¬ c.toNat ≤ 13 := by omega
  simp [isBlank, hspace, hcontrol]

/-! The text of an image (R216). -/

theorem imageText_eq_intercalate (ws : List Int) : imageText ws = [','].intercalate (ws.map integerText) := by
  induction ws using imageText.induct with
  | case1 => rfl
  | case2 v => simp [imageText]
  | case3 v w rest ih => simp [imageText, ih]

theorem splitCommas_imageText {ws : List Int} (h : ws ≠ []) : splitCommas (imageText ws) = ws.map integerText := by
  rw [splitCommas_eq_splitOn, imageText_eq_intercalate, List.splitOn_intercalate _ _ (by simpa using h)]
  simpa using fun v _ => comma_notMem_integerText v

theorem isBlank_of_mem_imageText {ws : List Int} {c : Char} (h : c ∈ imageText ws) : isBlank c = false := by
  have hnumeral {v : Int} (hc : c ∈ integerText v) : isBlank c = false := by
    obtain rfl | hdigit := eq_minus_or_isDigit_of_mem_integerText hc
    · rfl
    · exact isBlank_of_isDigit hdigit
  induction ws using imageText.induct with
  | case1 => cases h
  | case2 v => exact hnumeral h
  | case3 v w rest ih =>
    rw [imageText, List.mem_append, List.mem_cons] at h
    obtain hc | rfl | hc := h
    · exact hnumeral hc
    · rfl
    · exact ih hc

/-- Blanks behind the text of an image are trimmed, its commas separate its numerals, and these read as its words. -/
theorem loadText_imageText_append {p : Params} {ws : List Int} {back : List Char} (hne : ws ≠ [])
    (hws : ∀ w ∈ ws, p.inRange w = true) (hback : ∀ c ∈ back, isBlank c = true) :
    loadText p (imageText ws ++ back) = some ws := by
  rw [loadText, trim_append_of_blank (fun _ => isBlank_of_mem_imageText) hback, splitCommas_imageText hne]
  exact tokenWords_map fun w hw => by rw [tokenWord_of_tokenValue (tokenValue_integerText w), if_pos (hws w hw)]

/-! The obligations. -/

/-- Settles O54: a RESET of words answers the loaded state, and loading that state again gives the same one. -/
theorem resetInstallsImageAndInput : Obligations.ResetInstallsImageAndInput := by
  unfold Obligations.ResetInstallsImageAndInput
  refine fun s image input => ⟨fun hwords => ?_, serve_reset_of_not_word⟩
  have hagain : serve (.reset image input) (s.load image input) = .next (.done, s.load image input) :=
    serve_reset_of_words (s := s.load image input) hwords
  exact ⟨s.load image input, serve_reset_of_words hwords, Memory.contents_ofImage image, rfl, rfl, rfl, rfl, rfl, rfl,
    rfl, rfl, rfl, rfl, hagain⟩

/-- Settles O59: with no blank behind the text, and with a newline behind it. -/
theorem loaderReadsBackImageText : Obligations.LoaderReadsBackImageText := by
  unfold Obligations.LoaderReadsBackImageText
  intro p ws hne hws
  have hplain : loadText p (imageText ws ++ []) = some ws := loadText_imageText_append hne hws (by simp)
  rw [List.append_nil] at hplain
  exact ⟨hplain, loadText_imageText_append hne hws (List.forall_mem_singleton.mpr rfl)⟩

/-- Settles O60: the loader fails with its tokens, and splitting and trimming only take commas and blanks away. -/
theorem loaderFailsWholeOnBadToken : Obligations.LoaderFailsWholeOnBadToken := by
  unfold Obligations.LoaderFailsWholeOnBadToken
  refine ⟨fun p text => tokenWords_eq_none_iff, fun p tok => tokenWord_eq_none_iff, fun text => ⟨?_, ?_⟩,
    fun text => ⟨_, _, (takeWhile_trim_rtakeWhile text).symm, fun c hc => ?_, fun c => isBlank_of_mem_head?_trim,
      fun c => isBlank_of_mem_getLast?_trim⟩⟩
  · rw [splitCommas_eq_splitOn, List.intercalate_splitOn]
  · exact fun tok => comma_notMem_of_mem_splitCommas
  · exact (List.mem_append.mp hc).elim List.mem_takeWhile_imp List.mem_rtakeWhile_imp

end Sys2Proof.Machine
end
